-- ==== Sys2Proof/Word.lean ====
section
/-! DEFINITION. The word of the core: the unsigned 8-bit value of registers, memory cells, PC, flags and latches
(spec/00_scope.md R5, R6). -/

namespace Sys2Proof

/-- An 8-bit value, read as unsigned 0 to 255 (R6: no signed interpretation exists). -/
abbrev Byte := BitVec 8

/-- `trunc8(v) = v mod 256` (R6), the source's "masked to 8 bits". -/
def trunc8 (v : Nat) : Byte := BitVec.ofNat 8 v

end Sys2Proof
end

