-- ==== Sys2Proof/Machine/Memory.lean ====
section
/-! DEFINITION. The memory array: 256 cells, kept as a list of (address, byte) in one canonical form
(spec/20_memory.md R50, R58; notes/assumptions/17.md). -/

namespace Sys2Proof.Machine

/-- Cells in rising order of address, none holding what an unlisted address reads as. -/
abbrev Memory := List Host.Cell

/-- What an unlisted address reads as: the reset contents of memory, 0x00 (spec/10_state.md R37). -/
def unlistedByte : Byte := 0#8

/-- The byte at an address. -/
def Memory.get : Memory → Nat → Byte
  | [], _ => unlistedByte
  | (k, v) :: rest, a => if k = a then v else Memory.get rest a

/-- The memory with no cell listed for the address. -/
def Memory.erase : Memory → Nat → Memory
  | [], _ => []
  | (k, v) :: rest, a => if k = a then Memory.erase rest a else (k, v) :: Memory.erase rest a

/-- The memory with a cell listed before the first one of a higher address. -/
def Memory.insert : Memory → Nat → Byte → Memory
  | [], a, v => [(a, v)]
  | (k, w) :: rest, a, v => if a < k then (a, v) :: (k, w) :: rest else (k, w) :: Memory.insert rest a v

/-- `M[a] <- v`: exactly one cell changes (R54, R58); writing the unlisted byte removes the entry. -/
def Memory.set (m : Memory) (a : Nat) (v : Byte) : Memory :=
  if v = unlistedByte then Memory.erase m a else Memory.insert (Memory.erase m a) a v

/-- The canonical form from the address `lo` on. -/
def Memory.wfFrom (lo : Nat) : Memory → Bool
  | [] => true
  | (k, v) :: rest => decide (lo ≤ k) && decide (k < 256) && (v != unlistedByte) && Memory.wfFrom (k + 1) rest

/-- The canonical form: addresses strictly rising, all within 0x00 to 0xFF (R50), no entry equal to the unlisted byte. -/
def Memory.wf (m : Memory) : Bool := Memory.wfFrom 0 m

end Sys2Proof.Machine
end

