-- ==== Sys2Proof/Config.lean ====
section
/-! DEFINITION. The named parameters of the core (spec/00_scope.md R5): the types of OPCODE_MAP, UNARY_ALU_ENCODING,
ADVANCE_MODE, IE_RESET, INT_MODE and LINE_TERMINATOR. Their default values stand in Decode.lean (`defaultParams`). -/

namespace Sys2Proof

/-- The operations an opcode byte can select: the mnemonics of the source's catalog (spec/30_encoding.md R84), the
values of OPCODE_MAP. -/
inductive Op
  | nop | hlt | ret | iret
  | push | pop | prn | pra | call | int
  | jmp | jeq | jne | jgt | jlt | jle | jge
  | ldi | ld | st
  | add | sub | mul | div | mod | inc | dec | cmp | and | not | or | xor | shl | shr
  deriving DecidableEq, Repr

/-- Every operation once, in the order of R84. -/
def Op.all : List Op :=
  [.nop, .hlt, .ret, .iret] ++
  [.push, .pop, .prn, .pra, .call, .int] ++
  [.jmp, .jeq, .jne, .jgt, .jlt, .jle, .jge] ++
  [.ldi, .ld, .st] ++
  [.add, .sub, .mul, .div, .mod, .inc, .dec, .cmp, .and, .not, .or, .xor, .shl, .shr]

/-- OPCODE_MAP: rows (opcode byte, operation), looked up by the whole byte (R84, R86; D1 makes it a parameter). -/
abbrev OpcodeMap := List (Byte × Op)

/-- UNARY_ALU_ENCODING (R85, D2). -/
inductive UnaryAluEncoding
  | twoOperand
  | ls8OneOperand
  deriving DecidableEq, Repr

/-- ADVANCE_MODE (R82, R108, D3). -/
inductive AdvanceMode
  | canonical
  | legacy
  deriving DecidableEq, Repr

/-- INT_MODE (R110, R180, D13). -/
inductive IntMode
  | refuse
  | stubNop
  deriving DecidableEq, Repr

/-- The six named parameters of R5: fixed for one machine, carried in its State as plain data (notes/assumptions/1.md,
DESIGN CHOICE, safe: no step writes them and statements hold for every value). -/
structure Params where
  /-- OPCODE_MAP as written for `two_operand`; Decode.lean's `Params.opcodes` applies UNARY_ALU_ENCODING to it. -/
  opcodeMap : OpcodeMap
  unaryAluEncoding : UnaryAluEncoding
  advanceMode : AdvanceMode
  /-- IE_RESET (R32, D10). -/
  ieReset : Bool
  intMode : IntMode
  /-- LINE_TERMINATOR (R114, D16): the characters PRN's rendering ends with. -/
  lineTerminator : List Char
  deriving DecidableEq, Repr

end Sys2Proof
end

