-- ==== Sys2Proof/Syntax.lean ====
section
/-! DEFINITION. The instructions, one constructor per row of spec/opcode_table.json (spec/30_encoding.md R84). -/

namespace Sys2Proof

/-- The 34 instructions. A register operand is the index the spec calls `ra` or `rb`; an index of 8 or more means the
register `index mod 8` (spec/10_state.md R21), and a well-formed instruction uses 0 to 7 (R90). INC, DEC and NOT name one
register: their operand B is encoded under `two_operand` and ignored (R83). -/
inductive Instr
  | nop
  | hlt
  | ret
  | iret
  | push (ra : Nat)
  | pop (ra : Nat)
  | prn (ra : Nat)
  | pra (ra : Nat)
  | call (ra : Nat)
  | int (ra : Nat)
  | jmp (ra : Nat)
  | jeq (ra : Nat)
  | jne (ra : Nat)
  | jgt (ra : Nat)
  | jlt (ra : Nat)
  | jle (ra : Nat)
  | jge (ra : Nat)
  | ldi (ra : Nat) (imm : Byte)
  | ld (ra rb : Nat)
  | st (ra rb : Nat)
  | add (ra rb : Nat)
  | sub (ra rb : Nat)
  | mul (ra rb : Nat)
  | div (ra rb : Nat)
  | mod (ra rb : Nat)
  | inc (ra : Nat)
  | dec (ra : Nat)
  | cmp (ra rb : Nat)
  | and (ra rb : Nat)
  | not (ra : Nat)
  | or (ra rb : Nat)
  | xor (ra rb : Nat)
  | shl (ra rb : Nat)
  | shr (ra rb : Nat)
  deriving DecidableEq, Repr

end Sys2Proof
end

