-- ==== Sys2Proof/WellFormed.lean ====
section
/-! DEFINITION. Which instructions can be written in the assembly notation and encoded without loss: every register
operand is R0 to R7 (spec/30_encoding.md R83, R90). -/

namespace Sys2Proof

/-- A register operand names one of R0 to R7 (R90). -/
def regOk (r : Nat) : Bool := decide (r < 8)

/-- Every register operand is R0 to R7; an immediate of any value is legal (R88). -/
def Instr.wellFormed : Instr → Bool
  | .nop => true
  | .hlt => true
  | .ret => true
  | .iret => true
  | .push ra => regOk ra
  | .pop ra => regOk ra
  | .prn ra => regOk ra
  | .pra ra => regOk ra
  | .call ra => regOk ra
  | .int ra => regOk ra
  | .jmp ra => regOk ra
  | .jeq ra => regOk ra
  | .jne ra => regOk ra
  | .jgt ra => regOk ra
  | .jlt ra => regOk ra
  | .jle ra => regOk ra
  | .jge ra => regOk ra
  | .ldi ra _ => regOk ra
  | .ld ra rb => regOk ra && regOk rb
  | .st ra rb => regOk ra && regOk rb
  | .add ra rb => regOk ra && regOk rb
  | .sub ra rb => regOk ra && regOk rb
  | .mul ra rb => regOk ra && regOk rb
  | .div ra rb => regOk ra && regOk rb
  | .mod ra rb => regOk ra && regOk rb
  | .inc ra => regOk ra
  | .dec ra => regOk ra
  | .cmp ra rb => regOk ra && regOk rb
  | .and ra rb => regOk ra && regOk rb
  | .not ra => regOk ra
  | .or ra rb => regOk ra && regOk rb
  | .xor ra rb => regOk ra && regOk rb
  | .shl ra rb => regOk ra && regOk rb
  | .shr ra rb => regOk ra && regOk rb

end Sys2Proof
end

