-- ==== Sys2Proof/Decode.lean ====
section
/-! DEFINITION. Opcode map, decoder and encoder (spec/30_encoding.md). The decoder is total on any bytes and rejects by
name; the encoder is written from the same table. -/

namespace Sys2Proof

/-- The opcode map of R84. Six bytes are the source's (HLT, PUSH, POP, PRN, LDI, ADD), the others the spec's default
(D1, D2; notes/assumptions/3.md, PRESUMED, unsafe if the block's bytes differ). -/
def defaultOpcodeMap : OpcodeMap :=
  [(0x00#8, .nop), (0x01#8, .hlt), (0x11#8, .ret), (0x13#8, .iret)] ++
  [(0x45#8, .push), (0x46#8, .pop), (0x47#8, .prn), (0x48#8, .pra), (0x50#8, .call), (0x52#8, .int)] ++
  [(0x54#8, .jmp), (0x55#8, .jeq), (0x56#8, .jne), (0x57#8, .jgt), (0x58#8, .jlt), (0x59#8, .jle), (0x5A#8, .jge)] ++
  [(0x82#8, .ldi), (0x83#8, .ld), (0x84#8, .st)] ++
  [(0xA0#8, .add), (0xA1#8, .sub), (0xA2#8, .mul), (0xA3#8, .div), (0xA4#8, .mod), (0xA5#8, .inc), (0xA6#8, .dec)] ++
  [(0xA7#8, .cmp), (0xA8#8, .and), (0xA9#8, .not), (0xAA#8, .or), (0xAB#8, .xor), (0xAC#8, .shl), (0xAD#8, .shr)]

/-- The defaults of R5. -/
def defaultParams : Params where
  opcodeMap := defaultOpcodeMap
  unaryAluEncoding := .twoOperand
  advanceMode := .canonical
  ieReset := true
  intMode := .refuse
  lineTerminator := ['\n']

/-- The bytes INC, DEC and NOT have under `ls8_one_operand` (R85). -/
def ls8UnaryByte : Op → Option Byte
  | .inc => some 0x65#8
  | .dec => some 0x66#8
  | .not => some 0x69#8
  | _ => none

/-- The opcode map in force: under `ls8_one_operand` the rows of INC, DEC and NOT are replaced (R85). -/
def Params.opcodes (p : Params) : OpcodeMap :=
  match p.unaryAluEncoding with
  | .twoOperand => p.opcodeMap
  | .ls8OneOperand => p.opcodeMap.map fun row => ((ls8UnaryByte row.2).getD row.1, row.2)

/-- The operation of a whole opcode byte (R86: no masking of low bits). -/
def lookupOp : OpcodeMap → Byte → Option Op
  | [], _ => none
  | (b, op) :: rest, ir => if b = ir then some op else lookupOp rest ir

/-- The opcode byte of an operation, for the encoder. -/
def byteOf : OpcodeMap → Op → Option Byte
  | [], _ => none
  | (b, op) :: rest, o => if op = o then some b else byteOf rest o

/-- Bits 7:6 of the opcode byte: the operand count (R80). -/
def operandCount (op : Byte) : Nat := op.toNat / 64

/-- `len(op)` (R81): one opcode byte and its operand bytes. (Bits 7:6 = 11 is no defined opcode: notes/assumptions/19.md.) -/
def instrLength (op : Byte) : Nat := 1 + operandCount op

/-- `adv(op)` of the legacy mode (R82). -/
def legacyAdvance (op : Byte) : Nat :=
  (if op.getLsbD 6 then 2 else 0) + (if op.getLsbD 7 then 3 else 0)

/-- `advance(IR)` (R108). -/
def advanceAmount (mode : AdvanceMode) (op : Byte) : Nat :=
  match mode with
  | .canonical => instrLength op
  | .legacy => legacyAdvance op

/-- The register a register-operand byte selects: its low 3 bits (R83). -/
def regIndex (o : Byte) : Nat := o.toNat % 8

/-- Operand extraction (R102): the instruction an operation makes of its two operand bytes, each operand byte read only
where the instruction's rule names it. -/
def Op.toInstr (op : Op) (opA opB : Byte) : Instr :=
  match op with
  | .nop => .nop
  | .hlt => .hlt
  | .ret => .ret
  | .iret => .iret
  | .push => .push (regIndex opA)
  | .pop => .pop (regIndex opA)
  | .prn => .prn (regIndex opA)
  | .pra => .pra (regIndex opA)
  | .call => .call (regIndex opA)
  | .int => .int (regIndex opA)
  | .jmp => .jmp (regIndex opA)
  | .jeq => .jeq (regIndex opA)
  | .jne => .jne (regIndex opA)
  | .jgt => .jgt (regIndex opA)
  | .jlt => .jlt (regIndex opA)
  | .jle => .jle (regIndex opA)
  | .jge => .jge (regIndex opA)
  | .ldi => .ldi (regIndex opA) opB
  | .ld => .ld (regIndex opA) (regIndex opB)
  | .st => .st (regIndex opA) (regIndex opB)
  | .add => .add (regIndex opA) (regIndex opB)
  | .sub => .sub (regIndex opA) (regIndex opB)
  | .mul => .mul (regIndex opA) (regIndex opB)
  | .div => .div (regIndex opA) (regIndex opB)
  | .mod => .mod (regIndex opA) (regIndex opB)
  | .inc => .inc (regIndex opA)
  | .dec => .dec (regIndex opA)
  | .cmp => .cmp (regIndex opA) (regIndex opB)
  | .and => .and (regIndex opA) (regIndex opB)
  | .not => .not (regIndex opA)
  | .or => .or (regIndex opA) (regIndex opB)
  | .xor => .xor (regIndex opA) (regIndex opB)
  | .shl => .shl (regIndex opA) (regIndex opB)
  | .shr => .shr (regIndex opA) (regIndex opB)

/-- Why bytes decode to no instruction. -/
inductive DecodeError
  /-- The byte is no row of the opcode map (R87, R101). -/
  | undefinedOpcode (byte : Byte)
  /-- The list ends before the instruction does. Never met by the core, which always fetches three bytes (R100). -/
  | truncated
  deriving DecidableEq, Repr

/-- Decode of the three fetched bytes (R101, R102). A byte with bits 7:6 = 11 is never an opcode (R80, R81: "decode
fails first"), whatever the map holds. -/
def decodeFetched (p : Params) (ir opA opB : Byte) : Except DecodeError Instr :=
  if operandCount ir = 3 then .error (.undefinedOpcode ir)
  else
    match lookupOp p.opcodes ir with
    | none => .error (.undefinedOpcode ir)
    | some op => .ok (op.toInstr opA opB)

/-- Decode of a list of bytes: the first instruction and the bytes after it (R80, R89). -/
def decode (p : Params) : List Byte → Except DecodeError (Instr × List Byte)
  | [] => .error .truncated
  | ir :: rest =>
    match decodeFetched p ir (rest.getD 0 0#8) (rest.getD 1 0#8) with
    | .error e => .error e
    | .ok i =>
      if rest.length < operandCount ir then .error .truncated
      else .ok (i, rest.drop (operandCount ir))

/-- The operation of an instruction. -/
def Instr.op : Instr → Op
  | .nop => .nop
  | .hlt => .hlt
  | .ret => .ret
  | .iret => .iret
  | .push _ => .push
  | .pop _ => .pop
  | .prn _ => .prn
  | .pra _ => .pra
  | .call _ => .call
  | .int _ => .int
  | .jmp _ => .jmp
  | .jeq _ => .jeq
  | .jne _ => .jne
  | .jgt _ => .jgt
  | .jlt _ => .jlt
  | .jle _ => .jle
  | .jge _ => .jge
  | .ldi _ _ => .ldi
  | .ld _ _ => .ld
  | .st _ _ => .st
  | .add _ _ => .add
  | .sub _ _ => .sub
  | .mul _ _ => .mul
  | .div _ _ => .div
  | .mod _ _ => .mod
  | .inc _ => .inc
  | .dec _ => .dec
  | .cmp _ _ => .cmp
  | .and _ _ => .and
  | .not _ => .not
  | .or _ _ => .or
  | .xor _ _ => .xor
  | .shl _ _ => .shl
  | .shr _ _ => .shr

/-- The operand byte that names a register: its upper five bits zero (R83). -/
def regByte (r : Nat) : Byte := trunc8 r

/-- Operand bytes A and B as an assembler writes them, zero where the instruction has none (R90: the ignored operand B
of INC, DEC and NOT is written as R0). -/
def Instr.operandBytes : Instr → Byte × Byte
  | .nop => (0#8, 0#8)
  | .hlt => (0#8, 0#8)
  | .ret => (0#8, 0#8)
  | .iret => (0#8, 0#8)
  | .push ra => (regByte ra, 0#8)
  | .pop ra => (regByte ra, 0#8)
  | .prn ra => (regByte ra, 0#8)
  | .pra ra => (regByte ra, 0#8)
  | .call ra => (regByte ra, 0#8)
  | .int ra => (regByte ra, 0#8)
  | .jmp ra => (regByte ra, 0#8)
  | .jeq ra => (regByte ra, 0#8)
  | .jne ra => (regByte ra, 0#8)
  | .jgt ra => (regByte ra, 0#8)
  | .jlt ra => (regByte ra, 0#8)
  | .jle ra => (regByte ra, 0#8)
  | .jge ra => (regByte ra, 0#8)
  | .ldi ra imm => (regByte ra, imm)
  | .ld ra rb => (regByte ra, regByte rb)
  | .st ra rb => (regByte ra, regByte rb)
  | .add ra rb => (regByte ra, regByte rb)
  | .sub ra rb => (regByte ra, regByte rb)
  | .mul ra rb => (regByte ra, regByte rb)
  | .div ra rb => (regByte ra, regByte rb)
  | .mod ra rb => (regByte ra, regByte rb)
  | .inc ra => (regByte ra, 0#8)
  | .dec ra => (regByte ra, 0#8)
  | .cmp ra rb => (regByte ra, regByte rb)
  | .and ra rb => (regByte ra, regByte rb)
  | .not ra => (regByte ra, 0#8)
  | .or ra rb => (regByte ra, regByte rb)
  | .xor ra rb => (regByte ra, regByte rb)
  | .shl ra rb => (regByte ra, regByte rb)
  | .shr ra rb => (regByte ra, regByte rb)

/-- The bytes of an instruction, opcode first, then as many operand bytes as the opcode byte's bits 7:6 say (R80).
Nothing where the opcode map has no row for the operation. -/
def encode (p : Params) (i : Instr) : List Byte :=
  match byteOf p.opcodes i.op with
  | none => []
  | some b => b :: [i.operandBytes.1, i.operandBytes.2].take (operandCount b)

/-- How many operands an operation has in the catalog (R80, R84). -/
def Op.operands : Op → Nat
  | .nop => 0
  | .hlt => 0
  | .ret => 0
  | .iret => 0
  | .push => 1
  | .pop => 1
  | .prn => 1
  | .pra => 1
  | .call => 1
  | .int => 1
  | .jmp => 1
  | .jeq => 1
  | .jne => 1
  | .jgt => 1
  | .jlt => 1
  | .jle => 1
  | .jge => 1
  | .ldi => 2
  | .ld => 2
  | .st => 2
  | .add => 2
  | .sub => 2
  | .mul => 2
  | .div => 2
  | .mod => 2
  | .inc => 2
  | .dec => 2
  | .cmp => 2
  | .and => 2
  | .not => 2
  | .or => 2
  | .xor => 2
  | .shl => 2
  | .shr => 2

/-- A row's opcode byte carries its operation's operand count in bits 7:6 (R84: "Every row's length agrees with its
operand count"); INC, DEC and NOT may also be one-operand rows (R85). -/
def rowOk (row : Byte × Op) : Bool :=
  operandCount row.1 == row.2.operands || ((ls8UnaryByte row.2).isSome && operandCount row.1 == 1)

/-- No byte stands in two rows. -/
def distinctBytes : OpcodeMap → Bool
  | [] => true
  | row :: rest => rest.all (fun r => r.1 != row.1) && distinctBytes rest

/-- What R80 and R84 ask of an opcode map: one row a byte, a row for every operation, operand counts in bits 7:6. -/
def OpcodeMap.wf (m : OpcodeMap) : Bool :=
  distinctBytes m && m.all rowOk && Op.all.all (fun op => (byteOf m op).isSome)

/-- The parameters name a proper opcode map under their own UNARY_ALU_ENCODING. -/
def Params.wf (p : Params) : Bool := OpcodeMap.wf p.opcodes

/-- The three bytes, first at the lowest address, of a word whose bit 0 is the least significant bit of the first byte;
bits from `nbits` on are zero. -/
def tableBytes (nbits w : Nat) : List Byte :=
  let v := w % 2 ^ nbits
  [trunc8 v, trunc8 (v / 256), trunc8 (v / 65536)]

/-- What the decoder, with the default parameters, reads from the word `w` of `nbits` bits. -/
def decodeTableWord (nbits w : Nat) : Option Instr :=
  match decode defaultParams (tableBytes nbits w) with
  | .ok r => some r.1
  | .error _ => none

end Sys2Proof
end

