-- ==== Sys2Proof/Machine/Registers.lean ====
section
/-! DEFINITION. The register file: eight 8-bit registers, any index taken modulo 8 (spec/10_state.md R20 to R24). -/

namespace Sys2Proof.Machine

/-- The registers x[0] to x[7] (R20). -/
abbrev RegFile := Vector Byte 8

/-- `register(i) = R[i mod 8]` (R21). -/
def RegFile.read (r : RegFile) (i : Nat) : Byte := r[i % 8]'(Nat.mod_lt i (by decide))

/-- `x[i] <- v` (R7, R22): every register is writable. -/
def RegFile.write (r : RegFile) (i : Nat) (v : Byte) : RegFile := r.set (i % 8) v (Nat.mod_lt i (by decide))

/-- SP is x[7] (R23). -/
def spIndex : Nat := 7

/-- IM is x[5] (R24). -/
def imIndex : Nat := 5

/-- IS is x[6] (R24). -/
def isIndex : Nat := 6

end Sys2Proof.Machine
end

