-- ==== Sys2Proof/Machine/State.lean ====
section
/-! DEFINITION. The state of the core as plain data (spec/10_state.md), what ends a step, and the state after reset. -/

namespace Sys2Proof.Machine

/-- The fatal errors (spec/60_exceptions.md R250). UnsupportedOperation is never raised (R251). -/
inductive FaultKind
  | undefinedOpcode
  | divisionByZero
  deriving DecidableEq, Repr

/-- Why the core refuses (spec/40_instruction_cycle.md R110): INT under INT_MODE = refuse. -/
inductive RefuseReason
  | int
  deriving DecidableEq, Repr

/-- The run status (R35). -/
inductive Status
  | running
  | halted
  | faulted (kind : FaultKind)
  | refused (reason : RefuseReason)
  deriving DecidableEq, Repr

/-- An event on the output channel (R36, spec/43_output.md): a decimal number or a character. -/
inductive Event
  | dec (v : Byte)
  | chr (v : Byte)
  deriving DecidableEq, Repr

/-- Everything the spec gives the core (spec/10_state.md, the table before R20), and the model's own two last fields. -/
@[ext]
structure State where
  /-- x[0..7] (R20); SP = x[7], IM = x[5], IS = x[6] (R23, R24). -/
  regs : RegFile
  /-- Program counter (R26). -/
  pc : Byte
  /-- Flags register: E bit 0, G bit 1, L bit 2, bits 7:3 stored (R27). -/
  fl : Byte
  /-- M[0..255] (spec/20_memory.md R50). -/
  mem : Memory
  /-- Memory-address latch (R34). -/
  mar : Byte
  /-- Memory-data latch (R34). -/
  mdr : Byte
  /-- Instruction register (R33). -/
  ir : Byte
  /-- Operand registers (R33). -/
  opA : Byte
  opB : Byte
  /-- Set by HLT (R31). -/
  halted : Bool
  /-- Interrupts enabled (R32). -/
  ie : Bool
  /-- Run status (R35). -/
  status : Status
  /-- Output channel, oldest event first (R36). -/
  out : List Event
  /-- The model's own: `load` is still admitted, no load and no step since reset (R281; notes/assumptions/15.md). -/
  loadOpen : Bool
  /-- The model's own: the named parameters of this machine (spec/00_scope.md R5; notes/assumptions/1.md). -/
  params : Params
  deriving DecidableEq, Repr

/-- How a step ends in a fatal error (spec/40_instruction_cycle.md R109 (b)). Each carries the state "as of the failing
instruction" with status Faulted (R118, R254; notes/assumptions/13.md, safe: the run ends where the spec ends it). -/
inductive Fault
  /-- Raised by the decode of a byte with no row in OPCODE_MAP (R101, R250). Safe: the spec's own fatal error. -/
  | undefinedOpcode (byte : Byte) (final : State)
  /-- Raised by DIV and MOD with a zero divisor (R216, R217, R250). Safe: the spec's own fatal error. -/
  | divisionByZero (final : State)
  deriving DecidableEq, Repr

/-- How a step, or a load, ends without a meaning (R109 (c), R110). -/
inductive Refusal
  /-- An instruction the model gives no meaning, by its mnemonic. Safe. No arm of exec uses it. -/
  | notModelled (mnemonic : String)
  /-- INT under INT_MODE = refuse (R180); carries the state with status Refused(INT). Safe: the spec's own refusal. -/
  | intWithoutContract (final : State)
  /-- `load` of more than 256 bytes (R281). Safe: the spec refuses it. -/
  | loadTooLong
  /-- A second `load`, or one after a step (R281). Safe: the spec refuses it. -/
  | loadAfterStart
  deriving DecidableEq, Repr

/-- The state a fault leaves the core in (R118, R254). -/
def Fault.final : Fault → State
  | .undefinedOpcode _ s => s
  | .divisionByZero s => s

/-- The state a refusal leaves the core in; none where the refusal is no status of the core (R252, R281). -/
def Refusal.final : Refusal → Option State
  | .notModelled _ => none
  | .intWithoutContract s => some s
  | .loadTooLong => none
  | .loadAfterStart => none

/-- The reset values of R37 for a machine with the parameters `p`. -/
def State.resetWith (p : Params) : State where
  regs := #v[0x00#8, 0x00#8, 0x00#8, 0x00#8, 0x00#8, 0x00#8, 0x00#8, 0xF4#8]
  pc := 0x00#8
  fl := 0x00#8
  mem := []
  mar := 0x00#8
  mdr := 0x00#8
  ir := 0x00#8
  opA := 0x00#8
  opB := 0x00#8
  halted := false
  ie := p.ieReset
  status := .running
  out := []
  loadOpen := true
  params := p

/-- The machine right after reset (R37, R280), with the default parameters of R5. -/
def State.reset : State := State.resetWith defaultParams

end Sys2Proof.Machine
end

