-- ==== Sys2Proof/Machine/Flags.lean ====
section
/-! DEFINITION. The flags register (spec/10_state.md R27): reading and setting a bit, the comparison of CMP
(spec/47_alu.md R218) and the conditions of the jumps (spec/46_jumps.md R191). -/

namespace Sys2Proof.Machine

/-- Bit numbers of E, G and L (R27). -/
def flagE : Nat := 0
def flagG : Nat := 1
def flagL : Nat := 2

/-- `FL[j]`: bit `j mod 8` (spec/00_scope.md R7). -/
def flagBit (fl : Byte) (j : Nat) : Bool := fl.getLsbD (j % 8)

/-- `set_flag(j, b)`: clears bit `j mod 8`, then sets it if `b` (R7). -/
def setFlag (fl : Byte) (j : Nat) (b : Bool) : Byte :=
  let cleared := fl &&& ~~~(1#8 <<< (j % 8))
  if b then cleared ||| (1#8 <<< (j % 8)) else cleared

/-- The flags after comparing `x` with `y` (R218): E, G and L cleared, then exactly one set; bits 7:3 kept. -/
def compareFlags (fl x y : Byte) : Byte :=
  let cleared := setFlag (setFlag (setFlag fl flagE false) flagG false) flagL false
  if x.toNat < y.toNat then setFlag cleared flagL true
  else if y.toNat < x.toNat then setFlag cleared flagG true
  else setFlag cleared flagE true

/-- `cond(FL)` of each conditional jump (R191). -/
def condEq (fl : Byte) : Bool := flagBit fl flagE
def condNe (fl : Byte) : Bool := !flagBit fl flagE
def condGt (fl : Byte) : Bool := flagBit fl flagG
def condLt (fl : Byte) : Bool := flagBit fl flagL
def condLe (fl : Byte) : Bool := flagBit fl flagL || flagBit fl flagE
def condGe (fl : Byte) : Bool := flagBit fl flagG || flagBit fl flagE

end Sys2Proof.Machine
end

