-- ==== Sys2Proof/Machine/Operands.lean ====
section
/-! DEFINITION. Operand forms (spec/30_encoding.md R83): a register operand, the immediate of LDI (its byte as it is, so it
needs no operation), and the one data addressing mode, register indirect (spec/44_load_store.md). -/

namespace Sys2Proof.Machine

/-- `x[i]` as a value (spec/00_scope.md R7): register `i mod 8`. -/
def State.reg (s : State) (i : Nat) : Byte := s.regs.read i

/-- `x[i] <- v` (R7, R22). -/
def State.setReg (s : State) (i : Nat) (v : Byte) : State := { s with regs := s.regs.write i v }

/-- The address a register operand holds, for LD and ST: the full 8-bit value of the register, no offset. -/
def State.regAddress (s : State) (i : Nat) : Byte := s.reg i

/-- The target a register operand holds, for jumps and CALL (spec/46_jumps.md): absolute. -/
def State.regTarget (s : State) (i : Nat) : Byte := s.reg i

/-- SP = x[7] (spec/10_state.md R23). -/
def State.sp (s : State) : Byte := s.reg spIndex

/-- Writing SP. -/
def State.setSp (s : State) (v : Byte) : State := s.setReg spIndex v

/-- IM = x[5] (R24): no effect beyond that of a general register. -/
def State.im (s : State) : Byte := s.reg imIndex

/-- IS = x[6] (R24): no effect beyond that of a general register. -/
def State.is (s : State) : Byte := s.reg isIndex

end Sys2Proof.Machine
end

