-- ==== Sys2Proof/Machine/Ops.lean ====
section
/-! DEFINITION. The named operations every meaning is written over: field updates, the latch protocol, the stack, the
PC, the output channel, fatal errors and refusals, fetch (spec/20_memory.md, spec/40_instruction_cycle.md,
spec/60_exceptions.md). -/

namespace Sys2Proof.Machine

/-- What a step or a handler answers. -/
abbrev Result := Host.Outcome State Fault Refusal

/-! Field updates. -/

def State.setPc (s : State) (v : Byte) : State := { s with pc := v }
def State.setFl (s : State) (v : Byte) : State := { s with fl := v }
def State.setHalted (s : State) (v : Bool) : State := { s with halted := v }
def State.setIe (s : State) (v : Bool) : State := { s with ie := v }
def State.setStatus (s : State) (v : Status) : State := { s with status := v }
def State.setLoadOpen (s : State) (v : Bool) : State := { s with loadOpen := v }
def State.setMem (s : State) (v : Memory) : State := { s with mem := v }
def State.setLatches (s : State) (addr data : Byte) : State := { s with mar := addr, mdr := data }
def State.setFetched (s : State) (ir opA opB : Byte) : State := { s with ir := ir, opA := opA, opB := opB }

/-! Memory through the latches (R52 to R54). An address is a byte, so every address is modulo 256 (R51). -/

/-- `M[a]`, without the latches: the model's reading of one byte. -/
def State.byteAt (s : State) (a : Byte) : Byte := Memory.get s.mem a.toNat

/-- `M[a] <- v`, without the latches: exactly one cell. -/
def State.setByte (s : State) (a v : Byte) : State := s.setMem (Memory.set s.mem a.toNat v)

/-- `MemRead(addr, 1)` (R53): MAR takes the address, MDR the cell; the value is MDR. -/
def memRead (s : State) (addr : Byte) : Byte × State := (s.byteAt addr, s.setLatches addr (s.byteAt addr))

/-- `MemWrite(addr, 1, v)` (R54): MAR takes the address, MDR the value, the cell at MAR takes MDR. -/
def memWrite (s : State) (addr v : Byte) : State := (s.setLatches addr v).setByte addr v

/-- Bytes stored from an address upward, modulo 256, without the latches: what a load does (R281). -/
def storeBytes (a : Byte) : List Byte → State → State
  | [], s => s
  | b :: rest, s => storeBytes (a + 1#8) rest (s.setByte a b)

/-! The stack (R60, R61). -/

/-- `push(v)`: decrement SP, then store at SP. -/
def push (s : State) (v : Byte) : State :=
  let s1 := s.setSp (s.sp - 1#8)
  memWrite s1 s1.sp v

/-- `pop()`: read the cell at SP, clear it, increment SP; the value is the byte read. -/
def pop (s : State) : Byte × State :=
  let r := memRead s s.sp
  let s1 := memWrite r.2 r.2.sp 0x00#8
  (r.1, s1.setSp (s1.sp + 1#8))

/-! The program counter (R107, R108). A meaning ends in `advance` where the handler did not write the PC and in `jump`
where it did: the spec's `pc_written`, a fact of the handler (notes/assumptions/9.md). -/

/-- Auto-advance by `advance(IR)` (R108). -/
def State.advance (s : State) : State := s.setPc (s.pc + trunc8 (advanceAmount s.params.advanceMode s.ir))

/-- The handler did not write the PC. -/
def finish (s : State) : Result := .next s.advance

/-- `pc <- target`: an explicit PC write, so no auto-advance (R107). -/
def jump (s : State) (target : Byte) : Result := .next (s.setPc target)

/-- The conditional jump of R191. -/
def jumpIf (cond : Bool) (s : State) (target : Byte) : Result := if cond then jump s target else finish s

/-! The output channel (R113). -/

/-- `emit(e)`. -/
def emit (s : State) (e : Event) : State := { s with out := s.out ++ [e] }

/-! Fatal errors and refusals (R105, R109, R110, R254). -/

/-- `raise kind`: the step ends at once, the status becomes Faulted(kind), nothing else changes (R254). This core has no
other exception: no vector, no saved register, no return (R255, R261). -/
def raise (kind : FaultKind) (s : State) : Result :=
  let final := s.setStatus (.faulted kind)
  match kind with
  | .undefinedOpcode => .fault (.undefinedOpcode s.ir final)
  | .divisionByZero => .fault (.divisionByZero final)

/-- `refuse Unmodelled(INT)`: the status becomes Refused(INT), nothing else changes (R110). -/
def refuseInt (s : State) : Result := .refused (.intWithoutContract (s.setStatus (.refused .int)))

/-! The cycle's own parts (R100, R104). -/

/-- Fetch (R100): three reads through the latches, in order, before decode, whatever the opcode uses. -/
def fetch (s : State) : State :=
  let r0 := memRead s s.pc
  let r1 := memRead r0.2 (s.pc + 1#8)
  let r2 := memRead r1.2 (s.pc + 2#8)
  r2.2.setFetched r0.1 r1.1 r2.1

/-- The last lines of R104: `if halted = 1: status <- Halted`. -/
def settleHalt (s : State) : State := if s.halted then s.setStatus .halted else s

/-- What the cycle does with the handler's answer: a next state is settled, a fault or a refusal ends the step. -/
def afterExecute : Result → Result
  | .next s => .next (settleHalt s)
  | .fault f => .fault f
  | .refused r => .refused r

/-- A step requested while the status is not Running: no transition (R111; notes/assumptions/14.md). -/
def noTransition (s : State) : Result := .next s

end Sys2Proof.Machine
end

