-- ==== Sys2Proof/Machine/Alu.lean ====
section
/-! DEFINITION. The ALU instructions (spec/47_alu.md). Each entry computes on exact non-negative integers and reduces
modulo 256 (R201); the operands are read before the destination is written (R202). The ALU is total over its entries, so
UnsupportedOperation does not exist (R203). -/

namespace Sys2Proof.Machine

/-! The entries as functions of their operands. -/

def aluInc (x : Byte) : Byte := trunc8 (x.toNat + 1)
def aluDec (x : Byte) : Byte := BitVec.ofInt 8 ((x.toNat : Int) - 1)
def aluNot (x : Byte) : Byte := ~~~x
def aluAdd (x y : Byte) : Byte := trunc8 (x.toNat + y.toNat)
def aluSub (x y : Byte) : Byte := BitVec.ofInt 8 ((x.toNat : Int) - (y.toNat : Int))
def aluMul (x y : Byte) : Byte := trunc8 (x.toNat * y.toNat)
def aluDiv (x y : Byte) : Byte := trunc8 (x.toNat / y.toNat)
def aluMod (x y : Byte) : Byte := trunc8 (x.toNat % y.toNat)
def aluAnd (x y : Byte) : Byte := x &&& y
def aluOr (x y : Byte) : Byte := x ||| y
def aluXor (x y : Byte) : Byte := x ^^^ y
/-- The amount is the full 8-bit value, not reduced modulo 8 (R222). -/
def aluShl (x y : Byte) : Byte := trunc8 (x.toNat <<< y.toNat)
/-- Zeros enter at bit 7 (R223). -/
def aluShr (x y : Byte) : Byte := trunc8 (x.toNat >>> y.toNat)

/-- A unary entry: `x[a] <- f(x[a])`. -/
def aluUnary (f : Byte → Byte) (ra : Nat) (s : State) : Result := finish (s.setReg ra (f (s.reg ra)))

/-- A binary entry: `x[a] <- f(x[a], x[b])`. -/
def aluBinary (f : Byte → Byte → Byte) (ra rb : Nat) (s : State) : Result :=
  finish (s.setReg ra (f (s.reg ra) (s.reg rb)))

/-- A dividing entry: a zero divisor is fatal, tested before any write (R216, R217). -/
def aluDividing (f : Byte → Byte → Byte) (ra rb : Nat) (s : State) : Result :=
  if s.reg rb = 0x00#8 then raise .divisionByZero s else aluBinary f ra rb s

/-- INC Ra (R210). -/
def execInc (ra : Nat) (s : State) : Result := aluUnary aluInc ra s

/-- DEC Ra (R211). -/
def execDec (ra : Nat) (s : State) : Result := aluUnary aluDec ra s

/-- NOT Ra (R212). -/
def execNot (ra : Nat) (s : State) : Result := aluUnary aluNot ra s

/-- ADD Ra,Rb (R213). -/
def execAdd (ra rb : Nat) (s : State) : Result := aluBinary aluAdd ra rb s

/-- SUB Ra,Rb (R214). -/
def execSub (ra rb : Nat) (s : State) : Result := aluBinary aluSub ra rb s

/-- MUL Ra,Rb (R215). -/
def execMul (ra rb : Nat) (s : State) : Result := aluBinary aluMul ra rb s

/-- DIV Ra,Rb (R216). -/
def execDiv (ra rb : Nat) (s : State) : Result := aluDividing aluDiv ra rb s

/-- MOD Ra,Rb (R217). -/
def execMod (ra rb : Nat) (s : State) : Result := aluDividing aluMod ra rb s

/-- CMP Ra,Rb (R218): neither register is written, FL bits 2:0 are. -/
def execCmp (ra rb : Nat) (s : State) : Result := finish (s.setFl (compareFlags s.fl (s.reg ra) (s.reg rb)))

/-- AND Ra,Rb (R219). -/
def execAnd (ra rb : Nat) (s : State) : Result := aluBinary aluAnd ra rb s

/-- OR Ra,Rb (R220). -/
def execOr (ra rb : Nat) (s : State) : Result := aluBinary aluOr ra rb s

/-- XOR Ra,Rb (R221). -/
def execXor (ra rb : Nat) (s : State) : Result := aluBinary aluXor ra rb s

/-- SHL Ra,Rb (R222). -/
def execShl (ra rb : Nat) (s : State) : Result := aluBinary aluShl ra rb s

/-- SHR Ra,Rb (R223). -/
def execShr (ra rb : Nat) (s : State) : Result := aluBinary aluShr ra rb s

end Sys2Proof.Machine
end

