-- ==== Sys2Proof/Machine/Call.lean ====
section
/-! DEFINITION. CALL, RET, INT and IRET (spec/45_call_interrupt.md). -/

namespace Sys2Proof.Machine

/-- The return address of a CALL: `(pc + 2) mod 256`, in both ADVANCE_MODE settings (R170, R82). -/
def returnAddress (s : State) : Byte := s.pc + 2#8

/-- CALL Ra (R170): push the return address, then jump to the register, read after the push. -/
def execCall (ra : Nat) (s : State) : Result :=
  let s1 := push s (returnAddress s)
  jump s1 (s1.regTarget ra)

/-- RET (R172): `pc <- pop()`. -/
def execRet (s : State) : Result :=
  let r := pop s
  jump r.2 r.1

/-- INT Ra (R180): refused under INT_MODE = refuse, no effect under stub_nop. -/
def execInt (_ra : Nat) (s : State) : Result :=
  match s.params.intMode with
  | .refuse => refuseInt s
  | .stubNop => finish s

/-- `x[i] <- pop()`. -/
def popReg (i : Nat) (s : State) : State :=
  let r := pop s
  r.2.setReg i r.1

/-- `FL <- pop()`, all eight bits (R182). -/
def popFl (s : State) : State :=
  let r := pop s
  r.2.setFl r.1

/-- The seven register pops of IRET, R6 first (R182). -/
def popRegs (s : State) : State :=
  popReg 0 (popReg 1 (popReg 2 (popReg 3 (popReg 4 (popReg 5 (popReg 6 s))))))

/-- IRET (R182): pop R6 to R0, FL, then PC, and set `ie`. -/
def execIret (s : State) : Result :=
  let s1 := popFl (popRegs s)
  let r := pop s1
  jump (r.2.setIe true) r.1

end Sys2Proof.Machine
end

