-- ==== Sys2Proof/Machine/Control.lean ====
section
/-! DEFINITION. NOP and HLT (spec/41_nop_hlt.md). -/

namespace Sys2Proof.Machine

/-- NOP (R130): no effect. -/
def execNop (s : State) : Result := finish s

/-- HLT (R131): `halted <- 1`; the PC still advances, and the cycle then sets status Halted (R104). -/
def execHlt (s : State) : Result := finish (s.setHalted true)

end Sys2Proof.Machine
end

