-- ==== Sys2Proof/Machine/Jumps.lean ====
section
/-! DEFINITION. JMP and the conditional jumps (spec/46_jumps.md). -/

namespace Sys2Proof.Machine

/-- JMP Ra (R190). -/
def execJmp (ra : Nat) (s : State) : Result := jump s (s.regTarget ra)

/-- JEQ Ra (R192). -/
def execJeq (ra : Nat) (s : State) : Result := jumpIf (condEq s.fl) s (s.regTarget ra)

/-- JNE Ra (R193). -/
def execJne (ra : Nat) (s : State) : Result := jumpIf (condNe s.fl) s (s.regTarget ra)

/-- JGT Ra (R194). -/
def execJgt (ra : Nat) (s : State) : Result := jumpIf (condGt s.fl) s (s.regTarget ra)

/-- JLT Ra (R195). -/
def execJlt (ra : Nat) (s : State) : Result := jumpIf (condLt s.fl) s (s.regTarget ra)

/-- JLE Ra (R196). -/
def execJle (ra : Nat) (s : State) : Result := jumpIf (condLe s.fl) s (s.regTarget ra)

/-- JGE Ra (R197). -/
def execJge (ra : Nat) (s : State) : Result := jumpIf (condGe s.fl) s (s.regTarget ra)

end Sys2Proof.Machine
end

