-- ==== Sys2Proof/Machine/LoadStore.lean ====
section
/-! DEFINITION. LDI, LD and ST (spec/44_load_store.md). -/

namespace Sys2Proof.Machine

/-- LDI Ra,imm (R160). -/
def execLdi (ra : Nat) (imm : Byte) (s : State) : Result := finish (s.setReg ra imm)

/-- LD Ra,Rb (R161): the address is read before the register is written. -/
def execLd (ra rb : Nat) (s : State) : Result :=
  let r := memRead s (s.regAddress rb)
  finish (r.2.setReg ra r.1)

/-- ST Ra,Rb (R162): `MemWrite(x[ra], 1, x[rb])`. -/
def execSt (ra rb : Nat) (s : State) : Result := finish (memWrite s (s.regAddress ra) (s.reg rb))

end Sys2Proof.Machine
end

