-- ==== Sys2Proof/Machine/Output.lean ====
section
/-! DEFINITION. PRN and PRA (spec/43_output.md), and the rendering of their events as text
(spec/40_instruction_cycle.md R114). -/

namespace Sys2Proof.Machine

/-- PRN Ra (R150): `emit(Dec(x[ra]))`. -/
def execPrn (ra : Nat) (s : State) : Result := finish (emit s (.dec (s.reg ra)))

/-- PRA Ra (R151): `emit(Chr(x[ra]))`. -/
def execPra (ra : Nat) (s : State) : Result := finish (emit s (.chr (s.reg ra)))

/-- The character of a decimal digit. -/
def digitChar (d : Nat) : Char := Char.ofNat (48 + d)

/-- The decimal numeral of a byte: no sign, no leading zeros, "0" for zero (R114). -/
def decimal (v : Byte) : List Char :=
  let n := v.toNat
  if n < 10 then [digitChar n]
  else if n < 100 then [digitChar (n / 10), digitChar (n % 10)]
  else [digitChar (n / 100), digitChar (n / 10 % 10), digitChar (n % 10)]

/-- The text of an event (R114): a numeral and LINE_TERMINATOR, or one character U+0000 to U+00FF. -/
def renderEvent (p : Params) : Event → List Char
  | .dec v => decimal v ++ p.lineTerminator
  | .chr v => [Char.ofNat v.toNat]

/-- The text of the output channel, in the order of the events. -/
def renderOut (s : State) : List Char := s.out.flatMap (renderEvent s.params)

end Sys2Proof.Machine
end

