-- ==== Sys2Proof/Machine/Stack.lean ====
section
/-! DEFINITION. PUSH and POP (spec/42_stack.md). -/

namespace Sys2Proof.Machine

/-- PUSH Ra (R140): the register is read before SP is decremented, so PUSH R7 pushes the old SP. -/
def execPush (ra : Nat) (s : State) : Result := finish (push s (s.reg ra))

/-- POP Ra (R141): the register is written after `pop` has finished, so POP R7 leaves the popped byte in SP. -/
def execPop (ra : Nat) (s : State) : Result :=
  let r := pop s
  finish (r.2.setReg ra r.1)

end Sys2Proof.Machine
end

