-- ==== Sys2Proof/Machine/Dispatch.lean ====
section
/-! DEFINITION. The dispatcher's "Execute" line with the auto-advance (spec/40_instruction_cycle.md R103, R104): one arm per
instruction, each one call of its meaning. -/

namespace Sys2Proof.Machine

def exec (i : Instr) (s : State) : Host.Outcome State Fault Refusal :=
  match i with
  | .nop => Sys2Proof.Machine.execNop s
  | .hlt => Sys2Proof.Machine.execHlt s
  | .ret => Sys2Proof.Machine.execRet s
  | .iret => Sys2Proof.Machine.execIret s
  | .push ra => Sys2Proof.Machine.execPush ra s
  | .pop ra => Sys2Proof.Machine.execPop ra s
  | .prn ra => Sys2Proof.Machine.execPrn ra s
  | .pra ra => Sys2Proof.Machine.execPra ra s
  | .call ra => Sys2Proof.Machine.execCall ra s
  | .int ra => Sys2Proof.Machine.execInt ra s
  | .jmp ra => Sys2Proof.Machine.execJmp ra s
  | .jeq ra => Sys2Proof.Machine.execJeq ra s
  | .jne ra => Sys2Proof.Machine.execJne ra s
  | .jgt ra => Sys2Proof.Machine.execJgt ra s
  | .jlt ra => Sys2Proof.Machine.execJlt ra s
  | .jle ra => Sys2Proof.Machine.execJle ra s
  | .jge ra => Sys2Proof.Machine.execJge ra s
  | .ldi ra imm => Sys2Proof.Machine.execLdi ra imm s
  | .ld ra rb => Sys2Proof.Machine.execLd ra rb s
  | .st ra rb => Sys2Proof.Machine.execSt ra rb s
  | .add ra rb => Sys2Proof.Machine.execAdd ra rb s
  | .sub ra rb => Sys2Proof.Machine.execSub ra rb s
  | .mul ra rb => Sys2Proof.Machine.execMul ra rb s
  | .div ra rb => Sys2Proof.Machine.execDiv ra rb s
  | .mod ra rb => Sys2Proof.Machine.execMod ra rb s
  | .inc ra => Sys2Proof.Machine.execInc ra s
  | .dec ra => Sys2Proof.Machine.execDec ra s
  | .cmp ra rb => Sys2Proof.Machine.execCmp ra rb s
  | .and ra rb => Sys2Proof.Machine.execAnd ra rb s
  | .not ra => Sys2Proof.Machine.execNot ra s
  | .or ra rb => Sys2Proof.Machine.execOr ra rb s
  | .xor ra rb => Sys2Proof.Machine.execXor ra rb s
  | .shl ra rb => Sys2Proof.Machine.execShl ra rb s
  | .shr ra rb => Sys2Proof.Machine.execShr ra rb s

end Sys2Proof.Machine
end

