-- ==== Sys2Proof/Machine/Cycle.lean ====
section
/-! DEFINITION. One instruction cycle from status Running (spec/40_instruction_cycle.md R104): fetch, decode, execute with
auto-advance, then the halt status. -/

namespace Sys2Proof.Machine

/-- The state the decoder and the handler see: the three bytes fetched, and `load` no longer admitted (R281). -/
def fetched (s : State) : State := fetch (s.setLoadOpen false)

/-- The cycle of R104. -/
def cycle (s : State) : Result :=
  let s1 := fetched s
  match decodeFetched s1.params s1.ir s1.opA s1.opB with
  | .error _ => raise .undefinedOpcode s1
  | .ok i => afterExecute (exec i s1)

/-- The word of `nbits` bits stored at the PC, so that the next cycle fetches it. -/
def placeWord (s : State) (nbits w : Nat) : State := storeBytes s.pc (tableBytes nbits w) s

end Sys2Proof.Machine
end

