-- ==== Sys2Proof/Machine/Step.lean ====
section
/-! DEFINITION. The step (spec/40_instruction_cycle.md R104, R111). -/

namespace Sys2Proof.Machine

/-- One step: a cycle if the status is Running, else no transition (R111). -/
def step (s : State) : Host.Outcome State Fault Refusal :=
  if s.status = .running then cycle s else noTransition s

/-- The state with an instruction's word at the PC, where the next step fetches (notes/assumptions/18.md). -/
def State.withFetchWord (s : State) (nbits w : Nat) : State := placeWord s nbits w

end Sys2Proof.Machine
end

