-- ==== Sys2Proof/Machine/Ports.lean ====
section
/-! DEFINITION. The ports of the block besides `step` (spec/40_instruction_cycle.md R115): reset, load, run and status. The
port `out` is the field of State (rendered in Output.lean), the port `state` is State itself. -/

namespace Sys2Proof.Machine

/-- Port `reset`: every piece of state at its reset value; the machine keeps its parameters (R37, R115). -/
def resetPort (s : State) : State := State.resetWith s.params

/-- Port `load` (spec/70_reset_and_hazards.md R281): at most 256 bytes to memory from address 0, once, before the first
step; otherwise refused. -/
def load (bytes : List Byte) (s : State) : Result :=
  if 256 < bytes.length then .refused .loadTooLong
  else if s.loadOpen then .next ((storeBytes 0x00#8 bytes s).setLoadOpen false)
  else .refused .loadAfterStart

/-- The state a step leaves the core in, whatever its outcome. -/
def resultState : Result → Option State
  | .next s => some s
  | .fault f => some f.final
  | .refused r => r.final

/-- Port `run` (R112) within `n` steps: the state in which the status left Running, or none if it is still Running. -/
def run : Nat → State → Option State
  | 0, s => if s.status = .running then none else some s
  | n + 1, s => if s.status = .running then (resultState (step s)).bind (run n) else some s

/-- The states the status port names (spec/60_exceptions.md R252). -/
inductive PortState
  | running
  | halted
  | faulted
  | refused
  deriving DecidableEq, Repr

/-- Port `status` (R252): the state and its numeric code. -/
def statusPort : Status → PortState × Nat
  | .running => (.running, 0)
  | .halted => (.halted, 0)
  | .faulted .undefinedOpcode => (.faulted, 1)
  | .faulted .divisionByZero => (.faulted, 2)
  | .refused .int => (.refused, 1)

end Sys2Proof.Machine
end

