-- ==== Sys2Proof/Safety.lean ====
section
/-! DEFINITION. The terms in which claims speak of the core: its invariant, its reachable states, a good end of a run, and
what no program can observe. -/

namespace Sys2Proof.Machine

/-- The invariant: memory in its canonical form, and status Halted exactly when `halted` is 1 (spec/10_state.md R35). Every
width (R39) is in the types. -/
def StateInv (s : State) : Prop := s.mem.wf = true ∧ (s.status = .halted ↔ s.halted = true)

/-- The states a machine with the parameters `p` can be in: after reset, a load, a step or a failed step (R115). -/
inductive Reachable (p : Params) : State → Prop
  | reset : Reachable p (State.resetWith p)
  | load {s t : State} (bytes : List Byte) : Reachable p s → load bytes s = .next t → Reachable p t
  | step {s t : State} : Reachable p s → resultState (step s) = some t → Reachable p t

/-- A run ends successfully when its status is Halted (spec/40_instruction_cycle.md R118). -/
def EndsWell (s : State) : Prop := ∃ n t, run n s = some t ∧ t.status = .halted

/-- The state without what no rule reads to decide anything (R32 `ie`, R33 and R34 between steps, R27 FL bits 7:3). -/
def forgetHidden (s : State) : State :=
  { s with ie := false, mar := 0x00#8, mdr := 0x00#8, ir := 0x00#8, opA := 0x00#8, opB := 0x00#8, fl := s.fl &&& 0x07#8 }

/-- An answer with `forgetHidden` applied to every state in it. -/
def observe : Result → Result
  | .next s => .next (forgetHidden s)
  | .fault (.undefinedOpcode b s) => .fault (.undefinedOpcode b (forgetHidden s))
  | .fault (.divisionByZero s) => .fault (.divisionByZero (forgetHidden s))
  | .refused (.intWithoutContract s) => .refused (.intWithoutContract (forgetHidden s))
  | .refused r => .refused r

end Sys2Proof.Machine
end

