-- ==== Sys2Proof/Certificates/Slice0/Obligations.lean ====
section
/-! DEFINITION. The statements about the core, from the rules of spec/. Values are written in the spec's own terms: exact
arithmetic on numbers 0 to 255, single bits, single memory cells. -/

namespace Sys2Proof.Claims

open Sys2Proof.Machine

/-- Every register but the destination is unchanged (indices modulo 8). -/
def RegsSameBut (dst : Nat) (s t : State) : Prop := ∀ j, j % 8 ≠ dst % 8 → t.reg j = s.reg j

/-- Every register is unchanged. -/
def RegsSame (s t : State) : Prop := ∀ j, t.reg j = s.reg j

/-- Every byte of memory is unchanged. -/
def BytesSame (s t : State) : Prop := ∀ a, t.byteAt a = s.byteAt a

/-- Every byte of memory but the one at `a` is unchanged. -/
def BytesSameBut (a : Byte) (s t : State) : Prop := ∀ b, b ≠ a → t.byteAt b = s.byteAt b

/-- The PC is auto-advanced: by the length of the opcode in IR, or as the legacy mode has it, modulo 256. -/
def AutoAdvanced (s t : State) : Prop :=
  t.pc.toNat = (s.pc.toNat + advanceAmount s.params.advanceMode s.ir) % 256

/-- A register-only instruction: it completes, auto-advances, leaves the value `v` in its destination register, and changes
nothing else: no other register, no flag, no byte of memory, no latch, no other field. -/
def WritesRegister (i : Instr) (dst : Nat) (s : State) (v : Nat) : Prop :=
  ∃ t, exec i s = .next t ∧ (t.reg dst).toNat = v ∧ RegsSameBut dst s t ∧ t.fl = s.fl ∧ BytesSame s t ∧
    AutoAdvanced s t ∧ t = { s with regs := t.regs, pc := t.pc }

/-- A conditional jump: where its condition holds the PC is the register's value, elsewhere it is auto-advanced, and nothing
else changes. -/
def JumpsWhen (jump : Nat → Instr) (cond : Byte → Prop) : Prop :=
  ∀ ra s,
    (cond s.fl → exec (jump ra) s = .next { s with pc := s.reg ra }) ∧
    (¬ cond s.fl → ∃ t, exec (jump ra) s = .next t ∧ AutoAdvanced s t ∧ t = { s with pc := t.pc })

/-- Both settings of UNARY_ALU_ENCODING over the default opcode map. -/
def DefaultMap (p : Params) : Prop := p.opcodeMap = defaultOpcodeMap

/-- Pushing a list of bytes, the first one first. -/
def pushAll : List Byte → State → State
  | [], s => s
  | v :: rest, s => pushAll rest (push s v)

/-- Popping `n` bytes: the bytes in the order popped, and the state after. -/
def popAll : Nat → State → List Byte × State
  | 0, s => ([], s)
  | n + 1, s =>
    let r := pop s
    let q := popAll n r.2
    (r.1 :: q.1, q.2)

/-- `n` steps from `s`, each from a Running state, lead to `t` (the state a step leaves, whatever its outcome). -/
def StepsTo : Nat → State → State → Prop
  | 0, s, t => t = s
  | n + 1, s, t => s.status = .running ∧ ∃ u, resultState (step s) = some u ∧ StepsTo n u t

/-- The bytes illegal as opcodes under `two_operand` (spec/30_encoding.md R87). -/
def IllegalTwoOperand (b : Nat) : Prop :=
  (0x02 ≤ b ∧ b ≤ 0x10) ∨ b = 0x12 ∨ (0x14 ≤ b ∧ b ≤ 0x44) ∨ (0x49 ≤ b ∧ b ≤ 0x4F) ∨ b = 0x51 ∨ b = 0x53 ∨
    (0x5B ≤ b ∧ b ≤ 0x81) ∨ (0x85 ≤ b ∧ b ≤ 0x9F) ∨ 0xAE ≤ b

/-- The registers an instruction may write: its destination operand, and SP for the stack instructions. -/
def mayWrite : Instr → List Nat
  | .push _ => [7]
  | .pop ra => [ra % 8, 7]
  | .call _ => [7]
  | .ret => [7]
  | .iret => [0, 1, 2, 3, 4, 5, 6, 7]
  | .ldi ra _ => [ra % 8]
  | .ld ra _ => [ra % 8]
  | .inc ra => [ra % 8]
  | .dec ra => [ra % 8]
  | .not ra => [ra % 8]
  | .add ra _ => [ra % 8]
  | .sub ra _ => [ra % 8]
  | .mul ra _ => [ra % 8]
  | .div ra _ => [ra % 8]
  | .mod ra _ => [ra % 8]
  | .and ra _ => [ra % 8]
  | .or ra _ => [ra % 8]
  | .xor ra _ => [ra % 8]
  | .shl ra _ => [ra % 8]
  | .shr ra _ => [ra % 8]
  | _ => []

/-- The one address an instruction stores to, if any but IRET (which clears nine): the slot of a push, the popped cell, the
address register of ST. -/
def storesTo (s : State) : Instr → Option Byte
  | .push _ => some (s.sp - 1#8)
  | .call _ => some (s.sp - 1#8)
  | .pop _ => some s.sp
  | .ret => some s.sp
  | .st ra _ => some (s.regAddress ra)
  | _ => none

/-- The register operands of an instruction, in encoding order. -/
def registerOperands : Instr → List Nat
  | .nop | .hlt | .ret | .iret => []
  | .push a | .pop a | .prn a | .pra a | .call a | .int a => [a]
  | .jmp a | .jeq a | .jne a | .jgt a | .jlt a | .jle a | .jge a => [a]
  | .ldi a _ | .inc a | .dec a | .not a => [a]
  | .ld a b | .st a b | .add a b | .sub a b | .mul a b | .div a b | .mod a b => [a, b]
  | .cmp a b | .and a b | .or a b | .xor a b | .shl a b | .shr a b => [a, b]

/-- A conditional jump. -/
def isConditionalJump : Instr → Bool
  | .jeq _ => true
  | .jne _ => true
  | .jgt _ => true
  | .jlt _ => true
  | .jle _ => true
  | .jge _ => true
  | _ => false

/-- An answer with FL taken out of every state in it. -/
def withoutFlags : Result → Result
  | .next s => .next { s with fl := 0x00#8 }
  | .fault (.undefinedOpcode b s) => .fault (.undefinedOpcode b { s with fl := 0x00#8 })
  | .fault (.divisionByZero s) => .fault (.divisionByZero { s with fl := 0x00#8 })
  | .refused (.intWithoutContract s) => .refused (.intWithoutContract { s with fl := 0x00#8 })
  | .refused r => .refused r

/-- The value of a decimal numeral. -/
def numeralValue (digits : List Char) : Nat := digits.foldl (fun n c => 10 * n + (c.toNat - 48)) 0

end Sys2Proof.Claims

section
open Sys2Proof Sys2Proof.Machine Sys2Proof.Claims

/-! ## Reset and the invariant -/

/-- R37's table for every parameter choice. Derived: the values of PC, FL, IR, opA, opB, MAR, MDR, halted are the spec's
decision D9 (log 6) and that of ie is D10 (log 7); registers and memory are the source's. -/
def Obligations.ResetValuesOfEveryField : Prop :=
  State.reset = State.resetWith defaultParams ∧ State.reset.ie = true ∧
  ∀ p, let s := State.resetWith p
    (∀ j, j < 7 → s.reg j = 0x00#8) ∧ s.sp = 0xF4#8 ∧ (∀ a, s.byteAt a = 0x00#8) ∧ s.pc = 0x00#8 ∧ s.fl = 0x00#8 ∧
    s.ir = 0x00#8 ∧ s.opA = 0x00#8 ∧ s.opB = 0x00#8 ∧ s.mar = 0x00#8 ∧ s.mdr = 0x00#8 ∧ s.halted = false ∧
    s.ie = p.ieReset ∧ s.status = .running ∧ s.out = []

/-- The invariant holds after reset. -/
def Obligations.InvariantHoldsAtReset : Prop := ∀ p, StateInv (State.resetWith p)

/-- Every outcome of a step (a next state, the state a fault or a refusal leaves) keeps the invariant: canonical memory of
256 cells, and status Halted exactly when `halted` is 1 (R35, R39). -/
def Obligations.StepKeepsInvariant : Prop := ∀ s t, StateInv s → resultState (step s) = some t → StateInv t

/-- So does a load, and hence every reachable state of every machine has the invariant. Derived: the parameters as a field of
State are the model's choice (log 1), and so is the canonical form of memory (log 17). -/
def Obligations.ReachableStatesKeepInvariant : Prop := ∀ p s, Reachable p s → StateInv s ∧ s.params = p

/-! ## Encoding -/

/-- Under a proper opcode map of either unary encoding, decoding what encode writes gives the instruction back, with the
bytes after it. -/
def Obligations.DecodeOfEncodeIsIdentity : Prop :=
  ∀ p i rest, p.wf = true → i.wellFormed = true → decode p (encode p i ++ rest) = .ok (i, rest)

/-- What is decoded is well-formed, took as many bytes as the opcode's bits 7:6 say (R81), and is what its own encoding
decodes to. -/
def Obligations.DecodedInstructionReencodes : Prop :=
  ∀ p b bytes i rest, p.wf = true → decode p (b :: bytes) = .ok (i, rest) →
    i.wellFormed = true ∧ (b :: bytes).length = rest.length + instrLength b ∧
    decode p (encode p i ++ rest) = .ok (i, rest)

/-- The default parameters, and the same with `ls8_one_operand`, have a proper opcode map: one row a byte, every operation,
operand counts in bits 7:6 (R84, R85). -/
def Obligations.DefaultOpcodeMapsAreProper : Prop := ∀ p, DefaultMap p → p.wf = true

/-- The rows of R84 and, under `ls8_one_operand`, of R85. Derived: 25 bytes are the spec's from general knowledge (D1) and
three its decision (D2), log 3 and log 4. -/
def Obligations.OpcodeMapRows : Prop :=
  ∀ p a b, DefaultMap p →
    decodeFetched p 0x00#8 a b = .ok .nop ∧ decodeFetched p 0x01#8 a b = .ok .hlt ∧
    decodeFetched p 0x11#8 a b = .ok .ret ∧ decodeFetched p 0x13#8 a b = .ok .iret ∧
    decodeFetched p 0x45#8 a b = .ok (.push (a.toNat % 8)) ∧ decodeFetched p 0x46#8 a b = .ok (.pop (a.toNat % 8)) ∧
    decodeFetched p 0x47#8 a b = .ok (.prn (a.toNat % 8)) ∧ decodeFetched p 0x48#8 a b = .ok (.pra (a.toNat % 8)) ∧
    decodeFetched p 0x50#8 a b = .ok (.call (a.toNat % 8)) ∧ decodeFetched p 0x52#8 a b = .ok (.int (a.toNat % 8)) ∧
    decodeFetched p 0x54#8 a b = .ok (.jmp (a.toNat % 8)) ∧ decodeFetched p 0x55#8 a b = .ok (.jeq (a.toNat % 8)) ∧
    decodeFetched p 0x56#8 a b = .ok (.jne (a.toNat % 8)) ∧ decodeFetched p 0x57#8 a b = .ok (.jgt (a.toNat % 8)) ∧
    decodeFetched p 0x58#8 a b = .ok (.jlt (a.toNat % 8)) ∧ decodeFetched p 0x59#8 a b = .ok (.jle (a.toNat % 8)) ∧
    decodeFetched p 0x5A#8 a b = .ok (.jge (a.toNat % 8)) ∧ decodeFetched p 0x82#8 a b = .ok (.ldi (a.toNat % 8) b) ∧
    decodeFetched p 0x83#8 a b = .ok (.ld (a.toNat % 8) (b.toNat % 8)) ∧
    decodeFetched p 0x84#8 a b = .ok (.st (a.toNat % 8) (b.toNat % 8)) ∧
    decodeFetched p 0xA0#8 a b = .ok (.add (a.toNat % 8) (b.toNat % 8)) ∧
    decodeFetched p 0xA1#8 a b = .ok (.sub (a.toNat % 8) (b.toNat % 8)) ∧
    decodeFetched p 0xA2#8 a b = .ok (.mul (a.toNat % 8) (b.toNat % 8)) ∧
    decodeFetched p 0xA3#8 a b = .ok (.div (a.toNat % 8) (b.toNat % 8)) ∧
    decodeFetched p 0xA4#8 a b = .ok (.mod (a.toNat % 8) (b.toNat % 8)) ∧
    decodeFetched p 0xA7#8 a b = .ok (.cmp (a.toNat % 8) (b.toNat % 8)) ∧
    decodeFetched p 0xA8#8 a b = .ok (.and (a.toNat % 8) (b.toNat % 8)) ∧
    decodeFetched p 0xAA#8 a b = .ok (.or (a.toNat % 8) (b.toNat % 8)) ∧
    decodeFetched p 0xAB#8 a b = .ok (.xor (a.toNat % 8) (b.toNat % 8)) ∧
    decodeFetched p 0xAC#8 a b = .ok (.shl (a.toNat % 8) (b.toNat % 8)) ∧
    decodeFetched p 0xAD#8 a b = .ok (.shr (a.toNat % 8) (b.toNat % 8)) ∧
    (p.unaryAluEncoding = .twoOperand →
      decodeFetched p 0xA5#8 a b = .ok (.inc (a.toNat % 8)) ∧ decodeFetched p 0xA6#8 a b = .ok (.dec (a.toNat % 8)) ∧
      decodeFetched p 0xA9#8 a b = .ok (.not (a.toNat % 8))) ∧
    (p.unaryAluEncoding = .ls8OneOperand →
      decodeFetched p 0x65#8 a b = .ok (.inc (a.toNat % 8)) ∧ decodeFetched p 0x66#8 a b = .ok (.dec (a.toNat % 8)) ∧
      decodeFetched p 0x69#8 a b = .ok (.not (a.toNat % 8)))

/-- Exactly the bytes R87 lists are illegal, under both unary encodings. Derived: the legal bytes are those of the default
map (D1, D2; log 3, log 4). -/
def Obligations.IllegalOpcodeBytesAreExactlyThose : Prop :=
  ∀ p b opA opB, DefaultMap p →
    (p.unaryAluEncoding = .twoOperand →
      (decodeFetched p b opA opB = .error (.undefinedOpcode b) ↔ IllegalTwoOperand b.toNat)) ∧
    (p.unaryAluEncoding = .ls8OneOperand →
      (decodeFetched p b opA opB = .error (.undefinedOpcode b) ↔
        (IllegalTwoOperand b.toNat ∧ b.toNat ≠ 0x65 ∧ b.toNat ≠ 0x66 ∧ b.toNat ≠ 0x69) ∨
          b.toNat = 0xA5 ∨ b.toNat = 0xA6 ∨ b.toNat = 0xA9))

/-- The worked encodings of R91, both ways. -/
def Obligations.WorkedEncodings : Prop :=
  decode defaultParams [0x82#8, 0x00#8, 0x08#8] = .ok (.ldi 0 8#8, []) ∧
  decode defaultParams [0x82#8, 0x01#8, 0x09#8] = .ok (.ldi 1 9#8, []) ∧
  decode defaultParams [0xA0#8, 0x00#8, 0x01#8] = .ok (.add 0 1, []) ∧
  decode defaultParams [0x47#8, 0x00#8] = .ok (.prn 0, []) ∧
  decode defaultParams [0x01#8] = .ok (.hlt, []) ∧
  decode defaultParams [0x82#8, 0x00#8, 0x2A#8] = .ok (.ldi 0 42#8, []) ∧
  decode defaultParams [0x45#8, 0x00#8] = .ok (.push 0, []) ∧
  decode defaultParams [0x46#8, 0x01#8] = .ok (.pop 1, []) ∧
  decode defaultParams [0x47#8, 0x01#8] = .ok (.prn 1, []) ∧
  encode defaultParams (.ldi 0 8#8) = [0x82#8, 0x00#8, 0x08#8] ∧
  encode defaultParams (.ldi 1 9#8) = [0x82#8, 0x01#8, 0x09#8] ∧
  encode defaultParams (.add 0 1) = [0xA0#8, 0x00#8, 0x01#8] ∧
  encode defaultParams (.prn 0) = [0x47#8, 0x00#8] ∧
  encode defaultParams .hlt = [0x01#8] ∧
  encode defaultParams (.ldi 0 42#8) = [0x82#8, 0x00#8, 0x2A#8] ∧
  encode defaultParams (.push 0) = [0x45#8, 0x00#8] ∧
  encode defaultParams (.pop 1) = [0x46#8, 0x01#8] ∧
  encode defaultParams (.prn 1) = [0x47#8, 0x01#8]

/-- `len(op)` by bits 7:6, and a byte with both bits set is no opcode of any map (R81). -/
def Obligations.LengthFromTopTwoBits : Prop :=
  ∀ op : Byte,
    (op.getLsbD 7 = false → op.getLsbD 6 = false → instrLength op = 1) ∧
    (op.getLsbD 7 = false → op.getLsbD 6 = true → instrLength op = 2) ∧
    (op.getLsbD 7 = true → op.getLsbD 6 = false → instrLength op = 3) ∧
    (op.getLsbD 7 = true → op.getLsbD 6 = true →
      ∀ p opA opB, decodeFetched p op opA opB = .error (.undefinedOpcode op)) ∧
    advanceAmount .canonical op = instrLength op ∧ 1 ≤ advanceAmount .canonical op

/-- The legacy advance (R82): 0, 2 or 3 for the three lengths, while the return address of a CALL stays two bytes on in both
modes. Derived: the last clause is the spec's decision D3 (log 5). -/
def Obligations.LegacyAdvanceAmounts : Prop :=
  (∀ op : Byte,
    (instrLength op = 1 → advanceAmount .legacy op = 0) ∧ (instrLength op = 2 → advanceAmount .legacy op = 2) ∧
    (instrLength op = 3 → advanceAmount .legacy op = 3)) ∧
  ∀ s ra t, exec (.call ra) s = .next t → t.byteAt (s.sp - 1#8) = s.pc + 2#8

/-! ## Registers, memory, stack -/

/-- A register index counts modulo 8, in reading, in writing, and in an operand byte: the register operands of what is
decoded are, in order, operand A mod 8 and operand B mod 8, so the upper five bits are ignored (R21); the operand B of LDI is
an immediate and no register operand. -/
def Obligations.RegisterIndexWrapsModulo8 : Prop :=
  (∀ (s : State) i, s.reg (i + 8) = s.reg i ∧ s.reg i = s.reg (i % 8)) ∧
  (∀ (s : State) i v, s.setReg (i + 8) v = s.setReg i v) ∧
  ∀ (op : Op) (a b : Byte),
    registerOperands (op.toInstr a b) <+: [a.toNat % 8, b.toNat % 8] ∧
    op.toInstr a b = op.toInstr (a &&& 0x07#8) b ∧ (op ≠ .ldi → op.toInstr a b = op.toInstr a (b &&& 0x07#8))

/-- Every register of the eight, SP, IM and IS among them, reads back what was written to it and no other changes. -/
def Obligations.RegisterReadAfterWrite : Prop :=
  ∀ (s : State) i j v, (s.setReg i v).reg j = (if j % 8 = i % 8 then v else s.reg j) ∧
    s.setReg i v = { s with regs := (s.setReg i v).regs }

/-- The two memory primitives (R53, R54): the latches they leave, the value read, the one cell written. -/
def Obligations.LatchProtocol : Prop :=
  (∀ s a, (memRead s a).1 = s.byteAt a ∧ (memRead s a).2.mar = a ∧ (memRead s a).2.mdr = s.byteAt a ∧
    BytesSame s (memRead s a).2 ∧ (memRead s a).2 = { s with mar := a, mdr := s.byteAt a }) ∧
  (∀ s a v, (memWrite s a v).mar = a ∧ (memWrite s a v).mdr = v ∧ (memWrite s a v).byteAt a = v ∧
    BytesSameBut a s (memWrite s a v) ∧
    memWrite s a v = { s with mar := a, mdr := v, mem := (memWrite s a v).mem })

/-- push and pop on any state (R60, R61), with the latches they leave (R55): SP, one cell, MAR and MDR change, and no other
register, cell or field. Derived: that pop's value is used after its increment is D7 (log 11). -/
def Obligations.PushAndPopPrimitives : Prop :=
  (∀ s v, (push s v).sp = s.sp - 1#8 ∧ (push s v).byteAt (s.sp - 1#8) = v ∧ BytesSameBut (s.sp - 1#8) s (push s v) ∧
    RegsSameBut 7 s (push s v) ∧
    push s v = { s with regs := (push s v).regs, mem := (push s v).mem, mar := s.sp - 1#8, mdr := v }) ∧
  (∀ s, (pop s).1 = s.byteAt s.sp ∧ (pop s).2.sp = s.sp + 1#8 ∧ (pop s).2.byteAt s.sp = 0x00#8 ∧
    BytesSameBut s.sp s (pop s).2 ∧ RegsSameBut 7 s (pop s).2 ∧
    (pop s).2 = { s with regs := (pop s).2.regs, mem := (pop s).2.mem, mar := s.sp, mdr := 0x00#8 })

/-- The stack law (R62): at most 256 bytes pushed and as many popped come back last in, first out; SP and every other
register are as before; each pushed cell holds 0x00 and every other cell is unchanged. -/
def Obligations.BalancedStackIsLifo : Prop :=
  ∀ (vs : List Byte) s, vs.length ≤ 256 →
    let r := popAll vs.length (pushAll vs s)
    r.1 = vs.reverse ∧ RegsSame s r.2 ∧
    ∀ a : Byte, r.2.byteAt a = (if (s.sp - 1#8 - a).toNat < vs.length then 0x00#8 else s.byteAt a)

/-! ## The cycle -/

/-- Fetch (R100): the bytes at PC, PC+1, PC+2 modulo 256 through the latches; registers, FL, memory and output are
unchanged. Derived: that fetch uses the latches is D5 (log 8). -/
def Obligations.FetchReadsThreeBytes : Prop :=
  ∀ s, (fetch s).ir = s.byteAt s.pc ∧ (fetch s).opA = s.byteAt (s.pc + 1#8) ∧ (fetch s).opB = s.byteAt (s.pc + 2#8) ∧
    (fetch s).mar = s.pc + 2#8 ∧ (fetch s).mdr = s.byteAt (s.pc + 2#8) ∧ RegsSame s (fetch s) ∧ BytesSame s (fetch s) ∧
    fetch s = { s with ir := (fetch s).ir, opA := (fetch s).opA, opB := (fetch s).opB, mar := (fetch s).mar,
                       mdr := (fetch s).mdr }

/-- A step from Running runs the instruction its three bytes decode to, on the fetched state, in which the PC still is the
opcode's address; then the halt status is settled (R104). -/
def Obligations.StepRunsTheDecodedInstruction : Prop :=
  ∀ s i, s.status = .running →
    decodeFetched s.params (s.byteAt s.pc) (s.byteAt (s.pc + 1#8)) (s.byteAt (s.pc + 2#8)) = .ok i →
    fetched s = fetch { s with loadOpen := false } ∧ (fetched s).pc = s.pc ∧
    (∀ t, exec i (fetched s) = .next t → step s = .next (if t.halted then { t with status := .halted } else t)) ∧
    (∀ f, exec i (fetched s) = .fault f → step s = .fault f) ∧
    (∀ r, exec i (fetched s) = .refused r → step s = .refused r)

/-- A step whose byte decodes to nothing is fatal before any handler runs: only IR, opA, opB, MAR, MDR show its fetch, and
the status becomes Faulted(UndefinedOpcode) (R101, R250). -/
def Obligations.UndefinedOpcodeFaults : Prop :=
  ∀ s e, s.status = .running →
    decodeFetched s.params (s.byteAt s.pc) (s.byteAt (s.pc + 1#8)) (s.byteAt (s.pc + 2#8)) = .error e →
    step s = .fault (.undefinedOpcode (s.byteAt s.pc)
      { s with ir := s.byteAt s.pc, opA := s.byteAt (s.pc + 1#8), opB := s.byteAt (s.pc + 2#8), mar := s.pc + 2#8,
               mdr := s.byteAt (s.pc + 2#8), loadOpen := false, status := .faulted .undefinedOpcode })

/-- From a status that is not Running no number of steps changes anything (R111). Derived: D14 (log 14). -/
def Obligations.StoppedCoreNeverMoves : Prop :=
  ∀ s k, s.status ≠ .running → Host.Core.run Sys2Proof.core k s = .next s

/-- The three outcomes of a step from Running (R109): a next state, Halted after HLT and Running after any other instruction;
a fault with its own status; a refusal with its own. -/
def Obligations.OutcomesOfAStep : Prop :=
  ∀ s, s.status = .running → s.halted = false →
    (∀ t, step s = .next t →
      (t.status = .running ∧ t.halted = false ∧
        decodeFetched s.params (s.byteAt s.pc) (s.byteAt (s.pc + 1#8)) (s.byteAt (s.pc + 2#8)) ≠ .ok .hlt) ∨
      (t.status = .halted ∧
        decodeFetched s.params (s.byteAt s.pc) (s.byteAt (s.pc + 1#8)) (s.byteAt (s.pc + 2#8)) = .ok .hlt)) ∧
    (∀ b t, step s = .fault (.undefinedOpcode b t) → t.status = .faulted .undefinedOpcode) ∧
    (∀ t, step s = .fault (.divisionByZero t) → t.status = .faulted .divisionByZero) ∧
    (∀ r, step s = .refused r → ∃ t, r = .intWithoutContract t ∧ t.status = .refused .int)

/-- A step that faults or is refused has written nothing but its fetch and the status (R105, R254), and the model's own bit
loadOpen (log 15). The only causes are a byte that decodes to nothing, a DIV or MOD whose divisor register is 0, and INT
under INT_MODE = refuse. Derived: the causes are R250 and R256, which the spec itself derives; INT_MODE is D13 (log 2). -/
def Obligations.FailedStepWritesNothing : Prop :=
  ∀ s t, resultState (step s) = some t → (∀ u, step s ≠ .next u) →
    s.status = .running ∧ RegsSame s t ∧ BytesSame s t ∧
    t = { s with ir := s.byteAt s.pc, opA := s.byteAt (s.pc + 1#8), opB := s.byteAt (s.pc + 2#8), mar := s.pc + 2#8,
                 mdr := s.byteAt (s.pc + 2#8), loadOpen := false, status := t.status } ∧
    ((t.status = .faulted .undefinedOpcode ∧ ∃ e, decodeFetched s.params t.ir t.opA t.opB = .error e) ∨
     (t.status = .faulted .divisionByZero ∧
        ∃ ra rb, s.reg rb = 0x00#8 ∧
          (decodeFetched s.params t.ir t.opA t.opB = .ok (.div ra rb) ∨
           decodeFetched s.params t.ir t.opA t.opB = .ok (.mod ra rb))) ∨
     (t.status = .refused .int ∧ s.params.intMode = .refuse ∧
        ∃ ra, decodeFetched s.params t.ir t.opA t.opB = .ok (.int ra)))

/-- `run` within `n` steps ends in `t` exactly when at most `n` steps from `s` lead to `t`, each from a Running state, and the
status of `t` is not Running; it has not ended exactly when `n` such steps lead to a Running state; an end does not change
with more steps (R112, R118). Derived: that `run` counts its steps is the model's choice (log 23). -/
def Obligations.RunEndsWhenStatusLeavesRunning : Prop :=
  (∀ n s t, run n s = some t ↔ t.status ≠ .running ∧ ∃ k, k ≤ n ∧ StepsTo k s t) ∧
  (∀ n s, run n s = none ↔ ∃ t, StepsTo n s t ∧ t.status = .running) ∧
  ∀ n s t, run n s = some t → ∀ k, run (n + k) s = some t

/-- Runs that never end (R112): a JMP to its own address, under the legacy advance any NOP (R130), and NOPs all around
memory. -/
def Obligations.SelfLoopsNeverEnd : Prop :=
  ∀ s, s.status = .running → s.halted = false →
    ((∃ ra, decodeFetched s.params (s.byteAt s.pc) (s.byteAt (s.pc + 1#8)) (s.byteAt (s.pc + 2#8)) = .ok (.jmp ra) ∧
        s.reg ra = s.pc) ∨
     (decodeFetched s.params (s.byteAt s.pc) (s.byteAt (s.pc + 1#8)) (s.byteAt (s.pc + 2#8)) = .ok .nop ∧
        s.params.advanceMode = .legacy ∧ s.byteAt s.pc = 0x00#8) ∨
     (∀ a : Byte, decodeFetched s.params (s.byteAt a) (s.byteAt (a + 1#8)) (s.byteAt (a + 2#8)) = .ok .nop)) →
    ∀ n, run n s = none

/-! ## Ports -/

/-- `load` (R281): the bytes stand from address 0 on, nothing else changes but that no further load is admitted; a longer
sequence, or a load after a load or a step, is refused. Derived: the refusals are D15 (log 15). -/
def Obligations.LoadStoresFromAddressZero : Prop :=
  (∀ bytes s, bytes.length ≤ 256 → s.loadOpen = true → ∃ t, load bytes s = .next t ∧
    (∀ a : Byte, t.byteAt a = (bytes[a.toNat]?).getD (s.byteAt a)) ∧
    t = { s with mem := t.mem, loadOpen := false }) ∧
  (∀ bytes s, 256 < bytes.length → load bytes s = .refused .loadTooLong) ∧
  (∀ bytes s, bytes.length ≤ 256 → s.loadOpen = false → load bytes s = .refused .loadAfterStart) ∧
  ∀ s t, s.status = .running → resultState (step s) = some t → t.loadOpen = false

/-- The status port (R252); code 3 is never reported (R251). Derived: the codes are D12 (log 24). -/
def Obligations.StatusPortCodes : Prop :=
  statusPort .running = (.running, 0) ∧ statusPort .halted = (.halted, 0) ∧
  statusPort (.faulted .undefinedOpcode) = (.faulted, 1) ∧ statusPort (.faulted .divisionByZero) = (.faulted, 2) ∧
  statusPort (.refused .int) = (.refused, 1) ∧ ∀ st, (statusPort st).2 ≠ 3

/-- Rendering (R114): a number is its decimal numeral, digits only, no leading zero, and then LINE_TERMINATOR; a character
is itself with no terminator. Derived: LINE_TERMINATOR is a parameter and the character set is D16 (log 16). -/
def Obligations.EventsRenderAsText : Prop :=
  ∀ p v,
    (∃ digits, renderEvent p (.dec v) = digits ++ p.lineTerminator ∧ numeralValue digits = v.toNat ∧
      (∀ c ∈ digits, '0' ≤ c ∧ c ≤ '9') ∧ digits ≠ [] ∧ (digits.head? = some '0' → digits = ['0'])) ∧
    (∃ c, renderEvent p (.chr v) = [c] ∧ c.toNat = v.toNat)

/-! ## NOP, HLT, stack, output -/

/-- NOP (R130) completes everywhere and changes only the PC: by 1 in canonical mode, by 0 in legacy mode. -/
def Obligations.NopOnlyAdvances : Prop :=
  ∀ s, ∃ t, exec .nop s = .next t ∧ AutoAdvanced s t ∧ RegsSame s t ∧ BytesSame s t ∧ t = { s with pc := t.pc } ∧
    (s.ir = 0x00#8 → (s.params.advanceMode = .canonical → t.pc = s.pc + 1#8) ∧ (s.params.advanceMode = .legacy → t.pc = s.pc))

/-- HLT (R131): its encoding and length; it completes everywhere, sets `halted`, advances the PC by 1 (canonical) or 0
(legacy) and changes nothing else; the step sets status Halted, and no further step has any effect. -/
def Obligations.HltHaltsTheCore : Prop :=
  (∀ p, DefaultMap p → decode p [0x01#8] = .ok (.hlt, []) ∧ instrLength 0x01#8 = 1) ∧
  (∀ s, ∃ t, exec .hlt s = .next t ∧ AutoAdvanced s t ∧ RegsSame s t ∧ BytesSame s t ∧
    t = { s with halted := true, pc := t.pc } ∧
    (s.ir = 0x01#8 → (s.params.advanceMode = .canonical → t.pc = s.pc + 1#8) ∧ (s.params.advanceMode = .legacy → t.pc = s.pc))) ∧
  (∀ s, s.status = .running →
    decodeFetched s.params (s.byteAt s.pc) (s.byteAt (s.pc + 1#8)) (s.byteAt (s.pc + 2#8)) = .ok .hlt →
    ∃ t, step s = .next t ∧ t.halted = true ∧ t.status = .halted ∧ RegsSame s t ∧ BytesSame s t ∧ t.fl = s.fl ∧
      t.out = s.out ∧ step t = .next t)

/-- PUSH (R140): the register's value from before the decrement goes to the cell below the old SP; only SP, that cell, the
latches and the PC change. -/
def Obligations.PushStoresBelowStackPointer : Prop :=
  ∀ s ra, ∃ t, exec (.push ra) s = .next t ∧ t.sp = s.sp - 1#8 ∧ t.byteAt (s.sp - 1#8) = s.reg ra ∧
    BytesSameBut (s.sp - 1#8) s t ∧ RegsSameBut 7 s t ∧ t.fl = s.fl ∧ t.mar = s.sp - 1#8 ∧ t.mdr = s.reg ra ∧
    AutoAdvanced s t ∧ t = { s with regs := t.regs, mem := t.mem, mar := t.mar, mdr := t.mdr, pc := t.pc }

/-- POP (R141): the byte at SP goes to the register, the cell is cleared, SP goes up by one; POP R7 leaves the popped byte
in SP. Derived: POP R7 is D7 (log 11). -/
def Obligations.PopLoadsAndClears : Prop :=
  ∀ s ra, ∃ t, exec (.pop ra) s = .next t ∧ t.reg ra = s.byteAt s.sp ∧ (ra % 8 ≠ 7 → t.sp = s.sp + 1#8) ∧
    t.byteAt s.sp = 0x00#8 ∧ BytesSameBut s.sp s t ∧ (∀ j, j % 8 ≠ 7 → j % 8 ≠ ra % 8 → t.reg j = s.reg j) ∧
    t.fl = s.fl ∧ t.mar = s.sp ∧ t.mdr = 0x00#8 ∧ AutoAdvanced s t ∧
    t = { s with regs := t.regs, mem := t.mem, mar := t.mar, mdr := t.mdr, pc := t.pc }

/-- PRN (R150): its encoding and length; it completes everywhere and appends Dec of the register, nothing else changes but
the PC; and Dec renders as an unsigned decimal numeral and the line terminator. -/
def Obligations.PrnEmitsDecimal : Prop :=
  (∀ p a, DefaultMap p → decode p [0x47#8, a] = .ok (.prn (a.toNat % 8), []) ∧ instrLength 0x47#8 = 2) ∧
  (∀ s ra, ∃ t, exec (.prn ra) s = .next t ∧ t.out = s.out ++ [.dec (s.reg ra)] ∧ AutoAdvanced s t ∧ RegsSame s t ∧
    BytesSame s t ∧ t.fl = s.fl ∧ t = { s with out := t.out, pc := t.pc }) ∧
  (∀ p, renderEvent p (.dec 0xFF#8) = ['2', '5', '5'] ++ p.lineTerminator ∧
    renderEvent p (.dec 0x00#8) = ['0'] ++ p.lineTerminator ∧
    ∀ v, ∃ digits, renderEvent p (.dec v) = digits ++ p.lineTerminator ∧ numeralValue digits = v.toNat ∧
      ∀ c ∈ digits, '0' ≤ c ∧ c ≤ '9')

/-- PRA (R151) appends Chr of the register, nothing else changes but the PC. -/
def Obligations.PraEmitsCharacter : Prop :=
  ∀ s ra, ∃ t, exec (.pra ra) s = .next t ∧ t.out = s.out ++ [.chr (s.reg ra)] ∧ AutoAdvanced s t ∧ RegsSame s t ∧
    BytesSame s t ∧ t.fl = s.fl ∧ t = { s with out := t.out, pc := t.pc }

/-! ## Loads and stores -/

/-- LDI (R160): its encoding and length; the register, SP included, takes the immediate as it is; nothing else changes but
the PC. -/
def Obligations.LdiLoadsImmediate : Prop :=
  (∀ p a b, DefaultMap p → decode p [0x82#8, a, b] = .ok (.ldi (a.toNat % 8) b, []) ∧ instrLength 0x82#8 = 3) ∧
  ∀ s ra imm, WritesRegister (.ldi ra imm) ra s imm.toNat

/-- LD (R161): the register takes the byte at the address in `rb`, read before the write; the latches show the access;
nothing else changes but the PC. -/
def Obligations.LdLoadsFromAddressRegister : Prop :=
  ∀ s ra rb, ∃ t, exec (.ld ra rb) s = .next t ∧ t.reg ra = s.byteAt (s.reg rb) ∧ RegsSameBut ra s t ∧ BytesSame s t ∧
    t.fl = s.fl ∧ t.mar = s.reg rb ∧ t.mdr = s.byteAt (s.reg rb) ∧ AutoAdvanced s t ∧
    t = { s with regs := t.regs, mar := t.mar, mdr := t.mdr, pc := t.pc }

/-- ST (R162): the cell at the address in `ra` takes the value of `rb`; every other cell and every register is unchanged. -/
def Obligations.StStoresToAddressRegister : Prop :=
  ∀ s ra rb, ∃ t, exec (.st ra rb) s = .next t ∧ t.byteAt (s.reg ra) = s.reg rb ∧ BytesSameBut (s.reg ra) s t ∧
    RegsSame s t ∧ t.fl = s.fl ∧ t.mar = s.reg ra ∧ t.mdr = s.reg rb ∧ AutoAdvanced s t ∧
    t = { s with mem := t.mem, mar := t.mar, mdr := t.mdr, pc := t.pc }

/-- A store is seen by the next fetch (R68): the three bytes fetched after an ST are the stored byte where they meet its
address, and the old bytes elsewhere. Derived: D19 (log 22). -/
def Obligations.StoreIsSeenByNextFetch : Prop :=
  ∀ s ra rb t, exec (.st ra rb) s = .next t →
    let cell := fun a : Byte => if a = s.reg ra then s.reg rb else s.byteAt a
    (fetched t).ir = cell t.pc ∧ (fetched t).opA = cell (t.pc + 1#8) ∧ (fetched t).opB = cell (t.pc + 2#8)

/-! ## Calls and interrupts -/

/-- CALL (R170): the return address `pc + 2` goes to the cell below the old SP, and the PC takes the register read after the
push. Derived: the order for CALL R7 is D6 (log 10). -/
def Obligations.CallPushesReturnAddress : Prop :=
  ∀ s ra, ∃ t, exec (.call ra) s = .next t ∧ t.sp = s.sp - 1#8 ∧ t.byteAt (s.sp - 1#8) = s.pc + 2#8 ∧
    BytesSameBut (s.sp - 1#8) s t ∧ RegsSameBut 7 s t ∧
    t.pc = (if ra % 8 = 7 then s.sp - 1#8 else s.reg ra) ∧ t.fl = s.fl ∧ t.mar = s.sp - 1#8 ∧ t.mdr = s.pc + 2#8 ∧
    t = { s with regs := t.regs, mem := t.mem, mar := t.mar, mdr := t.mdr, pc := t.pc }

/-- RET (R172): the PC takes the byte at SP, whoever wrote it; the cell is cleared, SP goes up by one. -/
def Obligations.RetPopsProgramCounter : Prop :=
  ∀ s, ∃ t, exec .ret s = .next t ∧ t.pc = s.byteAt s.sp ∧ t.sp = s.sp + 1#8 ∧ t.byteAt s.sp = 0x00#8 ∧
    BytesSameBut s.sp s t ∧ RegsSameBut 7 s t ∧ t.fl = s.fl ∧ t.mar = s.sp ∧ t.mdr = 0x00#8 ∧
    t = { s with regs := t.regs, mem := t.mem, mar := t.mar, mdr := t.mdr, pc := t.pc }

/-- A CALL at `p`, and then a RET from any state whose SP and return cell are as the CALL left them, returns to `p + 2` with
SP as before the CALL (R170 to R172). -/
def Obligations.RetReturnsAfterCall : Prop :=
  ∀ s ra u, (∃ t, exec (.call ra) s = .next t ∧ u.sp = t.sp ∧ u.byteAt u.sp = t.byteAt t.sp) →
    ∃ v, exec .ret u = .next v ∧ v.pc.toNat = (s.pc.toNat + 2) % 256 ∧ v.sp = s.sp ∧
      RegsSameBut 7 u v ∧ BytesSameBut u.sp u v

/-- INT (R180) under `stub_nop` only advances the PC; under `refuse` it is refused with nothing written but the status.
Derived: INT_MODE is D13 (log 2). -/
def Obligations.IntFollowsIntMode : Prop :=
  ∀ s ra,
    (s.params.intMode = .stubNop → ∃ t, exec (.int ra) s = .next t ∧ AutoAdvanced s t ∧ RegsSame s t ∧ BytesSame s t ∧
      t = { s with pc := t.pc }) ∧
    (s.params.intMode = .refuse →
      exec (.int ra) s = .refused (.intWithoutContract { s with status := .refused .int }))

/-- IRET (R182): the frame from the old SP upward is R6 to R0, FL, PC; the nine cells are cleared, SP goes up by nine, `ie`
is set, and nothing else changes. -/
def Obligations.IretRestoresFrame : Prop :=
  ∀ s, ∃ t, exec .iret s = .next t ∧
    t.reg 6 = s.byteAt s.sp ∧ t.reg 5 = s.byteAt (s.sp + 1#8) ∧ t.reg 4 = s.byteAt (s.sp + 2#8) ∧
    t.reg 3 = s.byteAt (s.sp + 3#8) ∧ t.reg 2 = s.byteAt (s.sp + 4#8) ∧ t.reg 1 = s.byteAt (s.sp + 5#8) ∧
    t.reg 0 = s.byteAt (s.sp + 6#8) ∧ t.fl = s.byteAt (s.sp + 7#8) ∧ t.pc = s.byteAt (s.sp + 8#8) ∧
    t.sp = s.sp + 9#8 ∧ t.ie = true ∧ t.mar = s.sp + 8#8 ∧ t.mdr = 0x00#8 ∧
    (∀ a : Byte, t.byteAt a = (if (a - s.sp).toNat < 9 then 0x00#8 else s.byteAt a)) ∧
    t = { s with regs := t.regs, fl := t.fl, mem := t.mem, mar := t.mar, mdr := t.mdr, pc := t.pc, ie := t.ie }

/-! ## Jumps -/

/-- JMP (R190) completes everywhere: the PC takes the register's value and nothing else changes. -/
def Obligations.JmpGoesToRegister : Prop := ∀ s ra, exec (.jmp ra) s = .next { s with pc := s.reg ra }

/-- The table of R191: each conditional jump is taken exactly on its condition over E (bit 0), G (bit 1) and L (bit 2). -/
def Obligations.ConditionalJumpsFollowFlags : Prop :=
  JumpsWhen .jeq (fun fl => fl.getLsbD 0 = true) ∧
  JumpsWhen .jne (fun fl => fl.getLsbD 0 = false) ∧
  JumpsWhen .jgt (fun fl => fl.getLsbD 1 = true) ∧
  JumpsWhen .jlt (fun fl => fl.getLsbD 2 = true) ∧
  JumpsWhen .jle (fun fl => fl.getLsbD 2 = true ∨ fl.getLsbD 0 = true) ∧
  JumpsWhen .jge (fun fl => fl.getLsbD 1 = true ∨ fl.getLsbD 0 = true)

/-! ## ALU -/

/-- The arithmetic laws of R201 for INC, DEC, ADD, SUB, MUL, DIV, MOD: exact results modulo 256, no flag recorded; a zero
divisor raises DivisionByZero and writes nothing. -/
def Obligations.ArithmeticIsExactModulo256 : Prop :=
  ∀ s ra rb,
    WritesRegister (.inc ra) ra s (((s.reg ra).toNat + 1) % 256) ∧
    WritesRegister (.dec ra) ra s (((s.reg ra).toNat + 255) % 256) ∧
    WritesRegister (.add ra rb) ra s (((s.reg ra).toNat + (s.reg rb).toNat) % 256) ∧
    WritesRegister (.sub ra rb) ra s (((s.reg ra).toNat + 256 - (s.reg rb).toNat) % 256) ∧
    WritesRegister (.mul ra rb) ra s (((s.reg ra).toNat * (s.reg rb).toNat) % 256) ∧
    ((s.reg rb).toNat ≠ 0 →
      WritesRegister (.div ra rb) ra s ((s.reg ra).toNat / (s.reg rb).toNat) ∧
      WritesRegister (.mod ra rb) ra s ((s.reg ra).toNat % (s.reg rb).toNat)) ∧
    ((s.reg rb).toNat = 0 →
      exec (.div ra rb) s = .fault (.divisionByZero { s with status := .faulted .divisionByZero }) ∧
      exec (.mod ra rb) s = .fault (.divisionByZero { s with status := .faulted .divisionByZero }))

/-- ADD (R213): its encoding and length, its result modulo 256, no flag, no exception, nothing else changed but the PC. -/
def Obligations.AddWrapsWithoutCarry : Prop :=
  (∀ p a b, DefaultMap p →
    decode p [0xA0#8, a, b] = .ok (.add (a.toNat % 8) (b.toNat % 8), []) ∧ instrLength 0xA0#8 = 3) ∧
  ∀ s ra rb, WritesRegister (.add ra rb) ra s (((s.reg ra).toNat + (s.reg rb).toNat) % 256)

/-- The quotient and remainder that DIV and MOD leave satisfy the division law (R201), and the quotient is at most the
dividend. -/
def Obligations.DivisionLaw : Prop :=
  ∀ s ra rb q r, exec (.div ra rb) s = .next q → exec (.mod ra rb) s = .next r →
    (s.reg ra).toNat = (q.reg ra).toNat * (s.reg rb).toNat + (r.reg ra).toNat ∧
    (r.reg ra).toNat < (s.reg rb).toNat ∧ (q.reg ra).toNat ≤ (s.reg ra).toNat

/-- NOT (R212): 255 minus the value; AND, OR, XOR (R219 to R221) bit by bit; nothing else changes but the PC. -/
def Obligations.BitwiseOperationsByBit : Prop :=
  ∀ s ra rb,
    WritesRegister (.not ra) ra s (255 - (s.reg ra).toNat) ∧
    (∃ v, WritesRegister (.and ra rb) ra s v ∧ v < 256 ∧
      ∀ k, v.testBit k = ((s.reg ra).toNat.testBit k && (s.reg rb).toNat.testBit k)) ∧
    (∃ v, WritesRegister (.or ra rb) ra s v ∧ v < 256 ∧
      ∀ k, v.testBit k = ((s.reg ra).toNat.testBit k || (s.reg rb).toNat.testBit k)) ∧
    (∃ v, WritesRegister (.xor ra rb) ra s v ∧ v < 256 ∧
      ∀ k, v.testBit k = ((s.reg ra).toNat.testBit k ^^ (s.reg rb).toNat.testBit k))

/-- SHL and SHR (R222, R223): the amount is the whole byte, not reduced modulo 8, so that a shift by 8 or more leaves 0;
zeros enter; nothing else changes but the PC. -/
def Obligations.ShiftsUseFullAmount : Prop :=
  ∀ s ra rb,
    WritesRegister (.shl ra rb) ra s ((s.reg ra).toNat * 2 ^ (s.reg rb).toNat % 256) ∧
    WritesRegister (.shr ra rb) ra s ((s.reg ra).toNat / 2 ^ (s.reg rb).toNat) ∧
    (8 ≤ (s.reg rb).toNat → WritesRegister (.shl ra rb) ra s 0 ∧ WritesRegister (.shr ra rb) ra s 0)

/-- CMP (R218, R30): unsigned comparison; exactly one of E, G, L; bits 7:3 kept; nothing else changes but the PC. -/
def Obligations.CmpSetsExactlyOneFlag : Prop :=
  ∀ s ra rb, ∃ t, exec (.cmp ra rb) s = .next t ∧
    (t.fl.getLsbD 0 = true ↔ (s.reg ra).toNat = (s.reg rb).toNat) ∧
    (t.fl.getLsbD 1 = true ↔ (s.reg rb).toNat < (s.reg ra).toNat) ∧
    (t.fl.getLsbD 2 = true ↔ (s.reg ra).toNat < (s.reg rb).toNat) ∧
    (∀ k, 3 ≤ k → t.fl.getLsbD k = s.fl.getLsbD k) ∧
    RegsSame s t ∧ BytesSame s t ∧ AutoAdvanced s t ∧ t = { s with fl := t.fl, pc := t.pc }

/-! ## Whole-machine rules -/

/-- Writers of FL (R28): CMP writes bits 2:0, sets exactly one of them and keeps the others; IRET writes all eight from the
stack; no other instruction writes FL. -/
def Obligations.OnlyCmpAndIretWriteFlags : Prop :=
  ∀ i s t, exec i s = .next t →
    ((∃ ra rb, i = .cmp ra rb) → t.fl &&& 0xF8#8 = s.fl &&& 0xF8#8 ∧
      (t.fl &&& 0x07#8 = 0x01#8 ∨ t.fl &&& 0x07#8 = 0x02#8 ∨ t.fl &&& 0x07#8 = 0x04#8)) ∧
    (i = .iret → t.fl = s.byteAt (s.sp + 7#8)) ∧
    ((∀ ra rb, i ≠ .cmp ra rb) → i ≠ .iret → t.fl = s.fl)

/-- Only the conditional jumps read FL (R29): JEQ and JNE the bit E, JGT the bit G, JLT the bit L, JLE L and E, JGE G and E.
For any other instruction FL changes nothing but FL itself, so FL reaches no register and no byte of memory; two FL values
that agree on the bits a jump reads send it the same way. -/
def Obligations.OnlyConditionalJumpsReadFlags : Prop :=
  (∀ i s v, isConditionalJump i = false → withoutFlags (exec i s) = withoutFlags (exec i { s with fl := v })) ∧
  ∀ s v ra,
    let s' := { s with fl := v }
    (v.getLsbD 0 = s.fl.getLsbD 0 →
      withoutFlags (exec (.jeq ra) s) = withoutFlags (exec (.jeq ra) s') ∧
      withoutFlags (exec (.jne ra) s) = withoutFlags (exec (.jne ra) s')) ∧
    (v.getLsbD 1 = s.fl.getLsbD 1 → withoutFlags (exec (.jgt ra) s) = withoutFlags (exec (.jgt ra) s')) ∧
    (v.getLsbD 2 = s.fl.getLsbD 2 → withoutFlags (exec (.jlt ra) s) = withoutFlags (exec (.jlt ra) s')) ∧
    (v.getLsbD 2 = s.fl.getLsbD 2 → v.getLsbD 0 = s.fl.getLsbD 0 →
      withoutFlags (exec (.jle ra) s) = withoutFlags (exec (.jle ra) s')) ∧
    (v.getLsbD 1 = s.fl.getLsbD 1 → v.getLsbD 0 = s.fl.getLsbD 0 →
      withoutFlags (exec (.jge ra) s) = withoutFlags (exec (.jge ra) s'))

/-- Which registers an instruction can change: its destination, and SP for the stack instructions (R23, R200). -/
def Obligations.OnlyNamedRegistersChange : Prop :=
  ∀ i s t, exec i s = .next t → ∀ j, j % 8 ∉ mayWrite i → t.reg j = s.reg j

/-- Which bytes an instruction can change: the slot of a push, the popped cell, the address of ST, the nine cells of IRET's
frame; every other instruction leaves all of memory, and the latches too unless it is LD (R55). -/
def Obligations.OnlyStoresChangeMemory : Prop :=
  ∀ i s t, exec i s = .next t →
    (∀ a : Byte, storesTo s i ≠ some a → (i = .iret → 9 ≤ (a - s.sp).toNat) → t.byteAt a = s.byteAt a) ∧
    (storesTo s i = none → i ≠ .iret → (∀ ra rb, i ≠ .ld ra rb) → t.mar = s.mar ∧ t.mdr = s.mdr)

/-- The output channel (R113): a step appends at most one event, a step that faults or is refused none; PRN appends Dec and
PRA appends Chr of the register, and no other instruction emits. -/
def Obligations.OutputOnlyGrows : Prop :=
  (∀ s t, resultState (step s) = some t →
    ∃ es, t.out = s.out ++ es ∧ es.length ≤ 1 ∧ ((∀ u, step s ≠ .next u) → es = [])) ∧
  ∀ i s t, exec i s = .next t →
    (∃ ra, i = .prn ra ∧ t.out = s.out ++ [.dec (s.reg ra)]) ∨
    (∃ ra, i = .pra ra ∧ t.out = s.out ++ [.chr (s.reg ra)]) ∨
    ((∀ ra, i ≠ .prn ra ∧ i ≠ .pra ra) ∧ t.out = s.out)

/-- Only IRET sets `ie` and nothing clears it (R32); only HLT sets `halted` and nothing clears it (R31). -/
def Obligations.InterruptEnableAndHaltAreSticky : Prop :=
  (∀ s t, resultState (step s) = some t → (s.ie = true → t.ie = true) ∧ (s.halted = true → t.halted = true)) ∧
  (∀ i s t, exec i s = .next t → (t.ie ≠ s.ie → i = .iret) ∧ (t.halted ≠ s.halted → i = .hlt))

/-- What no program can observe: `ie`, the latches, what the last fetch left in IR, opA and opB, and FL bits 7:3. States
that differ in these only step to answers that differ in these only (R27, R32 to R34). -/
def Obligations.HiddenStateIsNeverObserved : Prop :=
  ∀ s s', forgetHidden s = forgetHidden s' → observe (step s) = observe (step s')

/-- IM and IS are registers 5 and 6 (R24): reading either gives what was last written to that register, and no instruction
changes one unless it may write that register. -/
def Obligations.InterruptAliasesAreOrdinaryRegisters : Prop :=
  (∀ (s : State) v, (s.setReg 5 v).im = v ∧ (s.setReg 6 v).is = v ∧ (s.setReg 5 v).is = s.is ∧ (s.setReg 6 v).im = s.im) ∧
  ∀ i s t, exec i s = .next t → (5 ∉ mayWrite i → t.im = s.im) ∧ (6 ∉ mayWrite i → t.is = s.is)

end
end

