-- ==== Sys2Proof/Laws/Decode.lean ====
section
/-! SUPPORT. Laws of the opcode map and the operand bytes (spec/30_encoding.md). -/

namespace Sys2Proof

/-- A register operand byte of a well-formed instruction selects the register it was written for. -/
theorem regIndex_regByte {r : Nat} (h : regOk r = true) : regIndex (regByte r) = r := by
  simp only [regOk, decide_eq_true_eq] at h
  simp only [regIndex, regByte, trunc8, BitVec.toNat_ofNat]
  omega

theorem operandCount_le (b : Byte) : operandCount b ≤ 3 := by
  have := b.isLt
  unfold operandCount
  omega

theorem mem_of_byteOf {m : OpcodeMap} {op : Op} {b : Byte} (h : byteOf m op = some b) : (b, op) ∈ m := by
  induction m with
  | nil => simp [byteOf] at h
  | cons row rest ih =>
    obtain ⟨b', op'⟩ := row
    by_cases ho : op' = op
    · simp_all [byteOf]
    · simp only [byteOf, ho, if_false] at h
      exact List.mem_cons_of_mem _ (ih h)

theorem mem_of_lookupOp {m : OpcodeMap} {op : Op} {b : Byte} (h : lookupOp m b = some op) : (b, op) ∈ m := by
  induction m with
  | nil => simp [lookupOp] at h
  | cons row rest ih =>
    obtain ⟨b', op'⟩ := row
    by_cases ho : b' = b
    · simp_all [lookupOp]
    · simp only [lookupOp, ho, if_false] at h
      exact List.mem_cons_of_mem _ (ih h)

/-- With no byte in two rows, a row is what its byte looks up. -/
theorem lookupOp_of_mem {m : OpcodeMap} {op : Op} {b : Byte} (hd : distinctBytes m = true) (h : (b, op) ∈ m) :
    lookupOp m b = some op := by
  induction m with
  | nil => simp at h
  | cons row rest ih =>
    obtain ⟨b', op'⟩ := row
    simp only [distinctBytes, Bool.and_eq_true, List.all_eq_true, bne_iff_ne] at hd
    rcases List.mem_cons.1 h with heq | hmem
    · simp_all [lookupOp]
    · have hne : b' ≠ b := fun hb => hd.1 _ hmem hb.symm
      simpa [lookupOp, hne] using ih hd.2 hmem

/-- A row of a proper map never has bits 7:6 = 11. -/
theorem operandCount_of_rowOk {row : Byte × Op} (h : rowOk row = true) : operandCount row.1 ≤ 2 := by
  obtain ⟨b, op⟩ := row
  cases op <;> simp [rowOk, Op.operands, ls8UnaryByte] at h <;> dsimp only <;> omega

/-- Decoding the opcode byte of an operation under a proper map. -/
theorem decodeFetched_of_byteOf {p : Params} {op : Op} {b : Byte} (hp : p.wf = true) (hb : byteOf p.opcodes op = some b)
    (opA opB : Byte) : decodeFetched p b opA opB = .ok (op.toInstr opA opB) := by
  simp only [Params.wf, OpcodeMap.wf, Bool.and_eq_true, List.all_eq_true] at hp
  have hmem := mem_of_byteOf hb
  have hrow := operandCount_of_rowOk (hp.1.2 _ hmem)
  have hne : operandCount b ≠ 3 := by dsimp only at hrow; omega
  simp [decodeFetched, hne, lookupOp_of_mem hp.1.1 hmem]

end Sys2Proof
end

