-- ==== Sys2Proof/Laws/State.lean ====
section
/-! SUPPORT. The update laws of State: one lemma per field per named update, true by rfl, so that no proof unfolds a record
update; then the same for the two accessors `reg` and `byteAt`. -/

namespace Sys2Proof.Machine

variable (s : State)

@[simp] theorem setReg_regs (i : Nat) (v : Byte) : (s.setReg i v).regs = s.regs.write i v := rfl
@[simp] theorem setReg_pc (i : Nat) (v : Byte) : (s.setReg i v).pc = s.pc := rfl
@[simp] theorem setReg_fl (i : Nat) (v : Byte) : (s.setReg i v).fl = s.fl := rfl
@[simp] theorem setReg_mem (i : Nat) (v : Byte) : (s.setReg i v).mem = s.mem := rfl
@[simp] theorem setReg_mar (i : Nat) (v : Byte) : (s.setReg i v).mar = s.mar := rfl
@[simp] theorem setReg_mdr (i : Nat) (v : Byte) : (s.setReg i v).mdr = s.mdr := rfl
@[simp] theorem setReg_ir (i : Nat) (v : Byte) : (s.setReg i v).ir = s.ir := rfl
@[simp] theorem setReg_opA (i : Nat) (v : Byte) : (s.setReg i v).opA = s.opA := rfl
@[simp] theorem setReg_opB (i : Nat) (v : Byte) : (s.setReg i v).opB = s.opB := rfl
@[simp] theorem setReg_halted (i : Nat) (v : Byte) : (s.setReg i v).halted = s.halted := rfl
@[simp] theorem setReg_ie (i : Nat) (v : Byte) : (s.setReg i v).ie = s.ie := rfl
@[simp] theorem setReg_status (i : Nat) (v : Byte) : (s.setReg i v).status = s.status := rfl
@[simp] theorem setReg_out (i : Nat) (v : Byte) : (s.setReg i v).out = s.out := rfl
@[simp] theorem setReg_loadOpen (i : Nat) (v : Byte) : (s.setReg i v).loadOpen = s.loadOpen := rfl
@[simp] theorem setReg_params (i : Nat) (v : Byte) : (s.setReg i v).params = s.params := rfl
@[simp] theorem setReg_byteAt (i : Nat) (v : Byte) (b : Byte) : (s.setReg i v).byteAt b = s.byteAt b := rfl

@[simp] theorem setPc_regs (v : Byte) : (s.setPc v).regs = s.regs := rfl
@[simp] theorem setPc_pc (v : Byte) : (s.setPc v).pc = v := rfl
@[simp] theorem setPc_fl (v : Byte) : (s.setPc v).fl = s.fl := rfl
@[simp] theorem setPc_mem (v : Byte) : (s.setPc v).mem = s.mem := rfl
@[simp] theorem setPc_mar (v : Byte) : (s.setPc v).mar = s.mar := rfl
@[simp] theorem setPc_mdr (v : Byte) : (s.setPc v).mdr = s.mdr := rfl
@[simp] theorem setPc_ir (v : Byte) : (s.setPc v).ir = s.ir := rfl
@[simp] theorem setPc_opA (v : Byte) : (s.setPc v).opA = s.opA := rfl
@[simp] theorem setPc_opB (v : Byte) : (s.setPc v).opB = s.opB := rfl
@[simp] theorem setPc_halted (v : Byte) : (s.setPc v).halted = s.halted := rfl
@[simp] theorem setPc_ie (v : Byte) : (s.setPc v).ie = s.ie := rfl
@[simp] theorem setPc_status (v : Byte) : (s.setPc v).status = s.status := rfl
@[simp] theorem setPc_out (v : Byte) : (s.setPc v).out = s.out := rfl
@[simp] theorem setPc_loadOpen (v : Byte) : (s.setPc v).loadOpen = s.loadOpen := rfl
@[simp] theorem setPc_params (v : Byte) : (s.setPc v).params = s.params := rfl
@[simp] theorem setPc_reg (v : Byte) (j : Nat) : (s.setPc v).reg j = s.reg j := rfl
@[simp] theorem setPc_byteAt (v : Byte) (b : Byte) : (s.setPc v).byteAt b = s.byteAt b := rfl

@[simp] theorem setFl_regs (v : Byte) : (s.setFl v).regs = s.regs := rfl
@[simp] theorem setFl_pc (v : Byte) : (s.setFl v).pc = s.pc := rfl
@[simp] theorem setFl_fl (v : Byte) : (s.setFl v).fl = v := rfl
@[simp] theorem setFl_mem (v : Byte) : (s.setFl v).mem = s.mem := rfl
@[simp] theorem setFl_mar (v : Byte) : (s.setFl v).mar = s.mar := rfl
@[simp] theorem setFl_mdr (v : Byte) : (s.setFl v).mdr = s.mdr := rfl
@[simp] theorem setFl_ir (v : Byte) : (s.setFl v).ir = s.ir := rfl
@[simp] theorem setFl_opA (v : Byte) : (s.setFl v).opA = s.opA := rfl
@[simp] theorem setFl_opB (v : Byte) : (s.setFl v).opB = s.opB := rfl
@[simp] theorem setFl_halted (v : Byte) : (s.setFl v).halted = s.halted := rfl
@[simp] theorem setFl_ie (v : Byte) : (s.setFl v).ie = s.ie := rfl
@[simp] theorem setFl_status (v : Byte) : (s.setFl v).status = s.status := rfl
@[simp] theorem setFl_out (v : Byte) : (s.setFl v).out = s.out := rfl
@[simp] theorem setFl_loadOpen (v : Byte) : (s.setFl v).loadOpen = s.loadOpen := rfl
@[simp] theorem setFl_params (v : Byte) : (s.setFl v).params = s.params := rfl
@[simp] theorem setFl_reg (v : Byte) (j : Nat) : (s.setFl v).reg j = s.reg j := rfl
@[simp] theorem setFl_byteAt (v : Byte) (b : Byte) : (s.setFl v).byteAt b = s.byteAt b := rfl

@[simp] theorem setHalted_regs (v : Bool) : (s.setHalted v).regs = s.regs := rfl
@[simp] theorem setHalted_pc (v : Bool) : (s.setHalted v).pc = s.pc := rfl
@[simp] theorem setHalted_fl (v : Bool) : (s.setHalted v).fl = s.fl := rfl
@[simp] theorem setHalted_mem (v : Bool) : (s.setHalted v).mem = s.mem := rfl
@[simp] theorem setHalted_mar (v : Bool) : (s.setHalted v).mar = s.mar := rfl
@[simp] theorem setHalted_mdr (v : Bool) : (s.setHalted v).mdr = s.mdr := rfl
@[simp] theorem setHalted_ir (v : Bool) : (s.setHalted v).ir = s.ir := rfl
@[simp] theorem setHalted_opA (v : Bool) : (s.setHalted v).opA = s.opA := rfl
@[simp] theorem setHalted_opB (v : Bool) : (s.setHalted v).opB = s.opB := rfl
@[simp] theorem setHalted_halted (v : Bool) : (s.setHalted v).halted = v := rfl
@[simp] theorem setHalted_ie (v : Bool) : (s.setHalted v).ie = s.ie := rfl
@[simp] theorem setHalted_status (v : Bool) : (s.setHalted v).status = s.status := rfl
@[simp] theorem setHalted_out (v : Bool) : (s.setHalted v).out = s.out := rfl
@[simp] theorem setHalted_loadOpen (v : Bool) : (s.setHalted v).loadOpen = s.loadOpen := rfl
@[simp] theorem setHalted_params (v : Bool) : (s.setHalted v).params = s.params := rfl
@[simp] theorem setHalted_reg (v : Bool) (j : Nat) : (s.setHalted v).reg j = s.reg j := rfl
@[simp] theorem setHalted_byteAt (v : Bool) (b : Byte) : (s.setHalted v).byteAt b = s.byteAt b := rfl

@[simp] theorem setIe_regs (v : Bool) : (s.setIe v).regs = s.regs := rfl
@[simp] theorem setIe_pc (v : Bool) : (s.setIe v).pc = s.pc := rfl
@[simp] theorem setIe_fl (v : Bool) : (s.setIe v).fl = s.fl := rfl
@[simp] theorem setIe_mem (v : Bool) : (s.setIe v).mem = s.mem := rfl
@[simp] theorem setIe_mar (v : Bool) : (s.setIe v).mar = s.mar := rfl
@[simp] theorem setIe_mdr (v : Bool) : (s.setIe v).mdr = s.mdr := rfl
@[simp] theorem setIe_ir (v : Bool) : (s.setIe v).ir = s.ir := rfl
@[simp] theorem setIe_opA (v : Bool) : (s.setIe v).opA = s.opA := rfl
@[simp] theorem setIe_opB (v : Bool) : (s.setIe v).opB = s.opB := rfl
@[simp] theorem setIe_halted (v : Bool) : (s.setIe v).halted = s.halted := rfl
@[simp] theorem setIe_ie (v : Bool) : (s.setIe v).ie = v := rfl
@[simp] theorem setIe_status (v : Bool) : (s.setIe v).status = s.status := rfl
@[simp] theorem setIe_out (v : Bool) : (s.setIe v).out = s.out := rfl
@[simp] theorem setIe_loadOpen (v : Bool) : (s.setIe v).loadOpen = s.loadOpen := rfl
@[simp] theorem setIe_params (v : Bool) : (s.setIe v).params = s.params := rfl
@[simp] theorem setIe_reg (v : Bool) (j : Nat) : (s.setIe v).reg j = s.reg j := rfl
@[simp] theorem setIe_byteAt (v : Bool) (b : Byte) : (s.setIe v).byteAt b = s.byteAt b := rfl

@[simp] theorem setStatus_regs (v : Status) : (s.setStatus v).regs = s.regs := rfl
@[simp] theorem setStatus_pc (v : Status) : (s.setStatus v).pc = s.pc := rfl
@[simp] theorem setStatus_fl (v : Status) : (s.setStatus v).fl = s.fl := rfl
@[simp] theorem setStatus_mem (v : Status) : (s.setStatus v).mem = s.mem := rfl
@[simp] theorem setStatus_mar (v : Status) : (s.setStatus v).mar = s.mar := rfl
@[simp] theorem setStatus_mdr (v : Status) : (s.setStatus v).mdr = s.mdr := rfl
@[simp] theorem setStatus_ir (v : Status) : (s.setStatus v).ir = s.ir := rfl
@[simp] theorem setStatus_opA (v : Status) : (s.setStatus v).opA = s.opA := rfl
@[simp] theorem setStatus_opB (v : Status) : (s.setStatus v).opB = s.opB := rfl
@[simp] theorem setStatus_halted (v : Status) : (s.setStatus v).halted = s.halted := rfl
@[simp] theorem setStatus_ie (v : Status) : (s.setStatus v).ie = s.ie := rfl
@[simp] theorem setStatus_status (v : Status) : (s.setStatus v).status = v := rfl
@[simp] theorem setStatus_out (v : Status) : (s.setStatus v).out = s.out := rfl
@[simp] theorem setStatus_loadOpen (v : Status) : (s.setStatus v).loadOpen = s.loadOpen := rfl
@[simp] theorem setStatus_params (v : Status) : (s.setStatus v).params = s.params := rfl
@[simp] theorem setStatus_reg (v : Status) (j : Nat) : (s.setStatus v).reg j = s.reg j := rfl
@[simp] theorem setStatus_byteAt (v : Status) (b : Byte) : (s.setStatus v).byteAt b = s.byteAt b := rfl

@[simp] theorem setLoadOpen_regs (v : Bool) : (s.setLoadOpen v).regs = s.regs := rfl
@[simp] theorem setLoadOpen_pc (v : Bool) : (s.setLoadOpen v).pc = s.pc := rfl
@[simp] theorem setLoadOpen_fl (v : Bool) : (s.setLoadOpen v).fl = s.fl := rfl
@[simp] theorem setLoadOpen_mem (v : Bool) : (s.setLoadOpen v).mem = s.mem := rfl
@[simp] theorem setLoadOpen_mar (v : Bool) : (s.setLoadOpen v).mar = s.mar := rfl
@[simp] theorem setLoadOpen_mdr (v : Bool) : (s.setLoadOpen v).mdr = s.mdr := rfl
@[simp] theorem setLoadOpen_ir (v : Bool) : (s.setLoadOpen v).ir = s.ir := rfl
@[simp] theorem setLoadOpen_opA (v : Bool) : (s.setLoadOpen v).opA = s.opA := rfl
@[simp] theorem setLoadOpen_opB (v : Bool) : (s.setLoadOpen v).opB = s.opB := rfl
@[simp] theorem setLoadOpen_halted (v : Bool) : (s.setLoadOpen v).halted = s.halted := rfl
@[simp] theorem setLoadOpen_ie (v : Bool) : (s.setLoadOpen v).ie = s.ie := rfl
@[simp] theorem setLoadOpen_status (v : Bool) : (s.setLoadOpen v).status = s.status := rfl
@[simp] theorem setLoadOpen_out (v : Bool) : (s.setLoadOpen v).out = s.out := rfl
@[simp] theorem setLoadOpen_loadOpen (v : Bool) : (s.setLoadOpen v).loadOpen = v := rfl
@[simp] theorem setLoadOpen_params (v : Bool) : (s.setLoadOpen v).params = s.params := rfl
@[simp] theorem setLoadOpen_reg (v : Bool) (j : Nat) : (s.setLoadOpen v).reg j = s.reg j := rfl
@[simp] theorem setLoadOpen_byteAt (v : Bool) (b : Byte) : (s.setLoadOpen v).byteAt b = s.byteAt b := rfl

@[simp] theorem setMem_regs (v : Memory) : (s.setMem v).regs = s.regs := rfl
@[simp] theorem setMem_pc (v : Memory) : (s.setMem v).pc = s.pc := rfl
@[simp] theorem setMem_fl (v : Memory) : (s.setMem v).fl = s.fl := rfl
@[simp] theorem setMem_mem (v : Memory) : (s.setMem v).mem = v := rfl
@[simp] theorem setMem_mar (v : Memory) : (s.setMem v).mar = s.mar := rfl
@[simp] theorem setMem_mdr (v : Memory) : (s.setMem v).mdr = s.mdr := rfl
@[simp] theorem setMem_ir (v : Memory) : (s.setMem v).ir = s.ir := rfl
@[simp] theorem setMem_opA (v : Memory) : (s.setMem v).opA = s.opA := rfl
@[simp] theorem setMem_opB (v : Memory) : (s.setMem v).opB = s.opB := rfl
@[simp] theorem setMem_halted (v : Memory) : (s.setMem v).halted = s.halted := rfl
@[simp] theorem setMem_ie (v : Memory) : (s.setMem v).ie = s.ie := rfl
@[simp] theorem setMem_status (v : Memory) : (s.setMem v).status = s.status := rfl
@[simp] theorem setMem_out (v : Memory) : (s.setMem v).out = s.out := rfl
@[simp] theorem setMem_loadOpen (v : Memory) : (s.setMem v).loadOpen = s.loadOpen := rfl
@[simp] theorem setMem_params (v : Memory) : (s.setMem v).params = s.params := rfl
@[simp] theorem setMem_reg (v : Memory) (j : Nat) : (s.setMem v).reg j = s.reg j := rfl

@[simp] theorem setLatches_regs (a d : Byte) : (s.setLatches a d).regs = s.regs := rfl
@[simp] theorem setLatches_pc (a d : Byte) : (s.setLatches a d).pc = s.pc := rfl
@[simp] theorem setLatches_fl (a d : Byte) : (s.setLatches a d).fl = s.fl := rfl
@[simp] theorem setLatches_mem (a d : Byte) : (s.setLatches a d).mem = s.mem := rfl
@[simp] theorem setLatches_mar (a d : Byte) : (s.setLatches a d).mar = a := rfl
@[simp] theorem setLatches_mdr (a d : Byte) : (s.setLatches a d).mdr = d := rfl
@[simp] theorem setLatches_ir (a d : Byte) : (s.setLatches a d).ir = s.ir := rfl
@[simp] theorem setLatches_opA (a d : Byte) : (s.setLatches a d).opA = s.opA := rfl
@[simp] theorem setLatches_opB (a d : Byte) : (s.setLatches a d).opB = s.opB := rfl
@[simp] theorem setLatches_halted (a d : Byte) : (s.setLatches a d).halted = s.halted := rfl
@[simp] theorem setLatches_ie (a d : Byte) : (s.setLatches a d).ie = s.ie := rfl
@[simp] theorem setLatches_status (a d : Byte) : (s.setLatches a d).status = s.status := rfl
@[simp] theorem setLatches_out (a d : Byte) : (s.setLatches a d).out = s.out := rfl
@[simp] theorem setLatches_loadOpen (a d : Byte) : (s.setLatches a d).loadOpen = s.loadOpen := rfl
@[simp] theorem setLatches_params (a d : Byte) : (s.setLatches a d).params = s.params := rfl
@[simp] theorem setLatches_reg (a d : Byte) (j : Nat) : (s.setLatches a d).reg j = s.reg j := rfl
@[simp] theorem setLatches_byteAt (a d b : Byte) : (s.setLatches a d).byteAt b = s.byteAt b := rfl

@[simp] theorem setFetched_regs (a b c : Byte) : (s.setFetched a b c).regs = s.regs := rfl
@[simp] theorem setFetched_pc (a b c : Byte) : (s.setFetched a b c).pc = s.pc := rfl
@[simp] theorem setFetched_fl (a b c : Byte) : (s.setFetched a b c).fl = s.fl := rfl
@[simp] theorem setFetched_mem (a b c : Byte) : (s.setFetched a b c).mem = s.mem := rfl
@[simp] theorem setFetched_mar (a b c : Byte) : (s.setFetched a b c).mar = s.mar := rfl
@[simp] theorem setFetched_mdr (a b c : Byte) : (s.setFetched a b c).mdr = s.mdr := rfl
@[simp] theorem setFetched_ir (a b c : Byte) : (s.setFetched a b c).ir = a := rfl
@[simp] theorem setFetched_opA (a b c : Byte) : (s.setFetched a b c).opA = b := rfl
@[simp] theorem setFetched_opB (a b c : Byte) : (s.setFetched a b c).opB = c := rfl
@[simp] theorem setFetched_halted (a b c : Byte) : (s.setFetched a b c).halted = s.halted := rfl
@[simp] theorem setFetched_ie (a b c : Byte) : (s.setFetched a b c).ie = s.ie := rfl
@[simp] theorem setFetched_status (a b c : Byte) : (s.setFetched a b c).status = s.status := rfl
@[simp] theorem setFetched_out (a b c : Byte) : (s.setFetched a b c).out = s.out := rfl
@[simp] theorem setFetched_loadOpen (a b c : Byte) : (s.setFetched a b c).loadOpen = s.loadOpen := rfl
@[simp] theorem setFetched_params (a b c : Byte) : (s.setFetched a b c).params = s.params := rfl
@[simp] theorem setFetched_reg (a b c : Byte) (j : Nat) : (s.setFetched a b c).reg j = s.reg j := rfl
@[simp] theorem setFetched_byteAt (a b c : Byte) (d : Byte) : (s.setFetched a b c).byteAt d = s.byteAt d := rfl

@[simp] theorem setByte_regs (a v : Byte) : (s.setByte a v).regs = s.regs := rfl
@[simp] theorem setByte_pc (a v : Byte) : (s.setByte a v).pc = s.pc := rfl
@[simp] theorem setByte_fl (a v : Byte) : (s.setByte a v).fl = s.fl := rfl
@[simp] theorem setByte_mem (a v : Byte) : (s.setByte a v).mem = Memory.set s.mem a.toNat v := rfl
@[simp] theorem setByte_mar (a v : Byte) : (s.setByte a v).mar = s.mar := rfl
@[simp] theorem setByte_mdr (a v : Byte) : (s.setByte a v).mdr = s.mdr := rfl
@[simp] theorem setByte_ir (a v : Byte) : (s.setByte a v).ir = s.ir := rfl
@[simp] theorem setByte_opA (a v : Byte) : (s.setByte a v).opA = s.opA := rfl
@[simp] theorem setByte_opB (a v : Byte) : (s.setByte a v).opB = s.opB := rfl
@[simp] theorem setByte_halted (a v : Byte) : (s.setByte a v).halted = s.halted := rfl
@[simp] theorem setByte_ie (a v : Byte) : (s.setByte a v).ie = s.ie := rfl
@[simp] theorem setByte_status (a v : Byte) : (s.setByte a v).status = s.status := rfl
@[simp] theorem setByte_out (a v : Byte) : (s.setByte a v).out = s.out := rfl
@[simp] theorem setByte_loadOpen (a v : Byte) : (s.setByte a v).loadOpen = s.loadOpen := rfl
@[simp] theorem setByte_params (a v : Byte) : (s.setByte a v).params = s.params := rfl
@[simp] theorem setByte_reg (a v : Byte) (j : Nat) : (s.setByte a v).reg j = s.reg j := rfl

@[simp] theorem emit_regs (e : Event) : (emit s e).regs = s.regs := rfl
@[simp] theorem emit_pc (e : Event) : (emit s e).pc = s.pc := rfl
@[simp] theorem emit_fl (e : Event) : (emit s e).fl = s.fl := rfl
@[simp] theorem emit_mem (e : Event) : (emit s e).mem = s.mem := rfl
@[simp] theorem emit_mar (e : Event) : (emit s e).mar = s.mar := rfl
@[simp] theorem emit_mdr (e : Event) : (emit s e).mdr = s.mdr := rfl
@[simp] theorem emit_ir (e : Event) : (emit s e).ir = s.ir := rfl
@[simp] theorem emit_opA (e : Event) : (emit s e).opA = s.opA := rfl
@[simp] theorem emit_opB (e : Event) : (emit s e).opB = s.opB := rfl
@[simp] theorem emit_halted (e : Event) : (emit s e).halted = s.halted := rfl
@[simp] theorem emit_ie (e : Event) : (emit s e).ie = s.ie := rfl
@[simp] theorem emit_status (e : Event) : (emit s e).status = s.status := rfl
@[simp] theorem emit_out (e : Event) : (emit s e).out = s.out ++ [e] := rfl
@[simp] theorem emit_loadOpen (e : Event) : (emit s e).loadOpen = s.loadOpen := rfl
@[simp] theorem emit_params (e : Event) : (emit s e).params = s.params := rfl
@[simp] theorem emit_reg (e : Event) (j : Nat) : (emit s e).reg j = s.reg j := rfl
@[simp] theorem emit_byteAt (e : Event) (b : Byte) : (emit s e).byteAt b = s.byteAt b := rfl

@[simp] theorem sp_eq : s.sp = s.reg 7 := rfl
@[simp] theorem setSp_eq (v : Byte) : s.setSp v = s.setReg 7 v := rfl
@[simp] theorem im_eq : s.im = s.reg 5 := rfl
@[simp] theorem is_eq : s.is = s.reg 6 := rfl
@[simp] theorem regAddress_eq (i : Nat) : s.regAddress i = s.reg i := rfl
@[simp] theorem regTarget_eq (i : Nat) : s.regTarget i = s.reg i := rfl

end Sys2Proof.Machine
end

