-- ==== Sys2Proof/Laws/Memory.lean ====
section
/-! SUPPORT. Laws of memory (spec/20_memory.md R54, R58): a read after a write, and that every operation keeps the
canonical form. -/

namespace Sys2Proof.Machine

theorem Memory.get_erase (m : Memory) (a b : Nat) :
    Memory.get (Memory.erase m a) b = if a = b then unlistedByte else Memory.get m b := by
  induction m with
  | nil => simp [Memory.erase, Memory.get]
  | cons c rest ih =>
    obtain ⟨k, v⟩ := c
    by_cases hk : k = a
    · subst hk
      by_cases hb : k = b
      · subst hb
        simpa [Memory.erase] using ih
      · simpa [Memory.erase, Memory.get, hb] using ih
    · by_cases hb : k = b
      · subst hb
        simp [Memory.erase, Memory.get, hk, Ne.symm hk]
      · simp [Memory.erase, Memory.get, hk, hb, ih]

theorem Memory.get_insert_other (m : Memory) (a b : Nat) (v : Byte) (h : a ≠ b) :
    Memory.get (Memory.insert m a v) b = Memory.get m b := by
  induction m with
  | nil => simp [Memory.insert, Memory.get, h]
  | cons c rest ih =>
    obtain ⟨k, w⟩ := c
    simp only [Memory.insert]
    split
    · simp [Memory.get, h]
    · simp [Memory.get, ih]

theorem Memory.get_insert_erase (m : Memory) (a : Nat) (v : Byte) :
    Memory.get (Memory.insert (Memory.erase m a) a v) a = v := by
  induction m with
  | nil => simp [Memory.erase, Memory.insert, Memory.get]
  | cons c rest ih =>
    obtain ⟨k, w⟩ := c
    by_cases hk : k = a
    · simpa [Memory.erase, hk] using ih
    · by_cases hlt : a < k <;> simp [Memory.erase, Memory.insert, Memory.get, hk, hlt, ih]

/-- A read after a write, whatever the memory. -/
theorem Memory.get_set (m : Memory) (a b : Nat) (v : Byte) :
    Memory.get (Memory.set m a v) b = if a = b then v else Memory.get m b := by
  by_cases hv : v = unlistedByte
  · simp [Memory.set, hv, Memory.get_erase]
  · by_cases hb : a = b
    · subst hb
      simp [Memory.set, hv, Memory.get_insert_erase]
    · simp [Memory.set, hv, hb, Memory.get_insert_other, Memory.get_erase]

theorem Memory.wfFrom_weaken {m : Memory} {lo lo' : Nat} (hle : lo' ≤ lo) (h : Memory.wfFrom lo m = true) :
    Memory.wfFrom lo' m = true := by
  cases m with
  | nil => rfl
  | cons c rest =>
    simp only [Memory.wfFrom, Bool.and_eq_true, decide_eq_true_eq] at h ⊢
    exact ⟨⟨⟨by omega, h.1.1.2⟩, h.1.2⟩, h.2⟩

theorem Memory.wfFrom_erase {m : Memory} {lo : Nat} (a : Nat) (h : Memory.wfFrom lo m = true) :
    Memory.wfFrom lo (Memory.erase m a) = true := by
  induction m generalizing lo with
  | nil => rfl
  | cons c rest ih =>
    obtain ⟨k, v⟩ := c
    simp only [Memory.wfFrom, Bool.and_eq_true, decide_eq_true_eq] at h
    by_cases hk : k = a
    · simpa [Memory.erase, hk] using Memory.wfFrom_weaken (by omega) (ih h.2)
    · simp [Memory.erase, hk, Memory.wfFrom, h.1.1.1, h.1.1.2, ih h.2]
      simpa using h.1.2

theorem Memory.wfFrom_insert_erase {m : Memory} {lo a : Nat} {v : Byte} (hlo : lo ≤ a) (ha : a < 256)
    (hv : v ≠ unlistedByte) (h : Memory.wfFrom lo m = true) :
    Memory.wfFrom lo (Memory.insert (Memory.erase m a) a v) = true := by
  induction m generalizing lo with
  | nil => simp [Memory.erase, Memory.insert, Memory.wfFrom, hlo, ha, hv]
  | cons c rest ih =>
    obtain ⟨k, w⟩ := c
    simp only [Memory.wfFrom, Bool.and_eq_true, decide_eq_true_eq, bne_iff_ne] at h
    obtain ⟨⟨⟨h1, h2⟩, h3⟩, h4⟩ := h
    by_cases hk : k = a
    · subst hk
      simpa [Memory.erase] using ih (lo := lo) hlo (Memory.wfFrom_weaken (by omega) h4)
    · by_cases hlt : a < k
      · have := Memory.wfFrom_erase a h4
        simp [Memory.erase, hk, Memory.insert, hlt, Memory.wfFrom, hlo, ha, hv, h2, h3, this]
      · have := ih (lo := k + 1) (by omega) h4
        simp [Memory.erase, hk, Memory.insert, hlt, Memory.wfFrom, h1, h2, h3, this]

/-- Every write keeps the canonical form. -/
theorem Memory.wf_set {m : Memory} {a : Nat} (v : Byte) (ha : a < 256) (h : m.wf = true) :
    (Memory.set m a v).wf = true := by
  by_cases hv : v = unlistedByte
  · simpa [Memory.set, Memory.wf, hv] using Memory.wfFrom_erase a h
  · simpa [Memory.set, Memory.wf, hv] using Memory.wfFrom_insert_erase (Nat.zero_le a) ha hv h

/-- Below the first listed address everything reads as the unlisted byte. -/
theorem Memory.get_of_wfFrom {m : Memory} {lo a : Nat} (h : Memory.wfFrom lo m = true) (ha : a < lo) :
    Memory.get m a = unlistedByte := by
  induction m generalizing lo with
  | nil => rfl
  | cons c rest ih =>
    obtain ⟨k, v⟩ := c
    simp only [Memory.wfFrom, Bool.and_eq_true, decide_eq_true_eq] at h
    have hk : k ≠ a := by omega
    simpa [Memory.get, hk] using ih h.2 (by omega)

theorem Memory.ext_wfFrom {m m' : Memory} {lo : Nat} (h : Memory.wfFrom lo m = true) (h' : Memory.wfFrom lo m' = true)
    (hget : ∀ a, Memory.get m a = Memory.get m' a) : m = m' := by
  induction m generalizing m' lo with
  | nil =>
    cases m' with
    | nil => rfl
    | cons c rest =>
      simp only [Memory.wfFrom, Bool.and_eq_true, bne_iff_ne] at h'
      have := hget c.1
      simp [Memory.get] at this
      exact absurd this.symm h'.1.2
  | cons c rest ih =>
    obtain ⟨k, v⟩ := c
    have hm := h
    simp only [Memory.wfFrom, Bool.and_eq_true, decide_eq_true_eq, bne_iff_ne] at h
    cases m' with
    | nil => exact absurd (by simpa [Memory.get] using hget k) h.1.2
    | cons c' rest' =>
      obtain ⟨k', v'⟩ := c'
      have hm' := h'
      simp only [Memory.wfFrom, Bool.and_eq_true, decide_eq_true_eq, bne_iff_ne] at h'
      have hk : k = k' := by
        rcases Nat.lt_trichotomy k k' with hlt | heq | hgt
        · have h0 : Memory.get ((k', v') :: rest') k = unlistedByte :=
            Memory.get_of_wfFrom (lo := k') (by simp [Memory.wfFrom, h'.1.1.2, h'.1.2, h'.2]) hlt
          exact absurd ((hget k).trans h0) (by simpa [Memory.get] using h.1.2)
        · exact heq
        · have h0 : Memory.get ((k, v) :: rest) k' = unlistedByte :=
            Memory.get_of_wfFrom (lo := k) (by simp [Memory.wfFrom, h.1.1.2, h.1.2, h.2]) hgt
          exact absurd ((hget k').symm.trans h0) (by simpa [Memory.get] using h'.1.2)
      subst hk
      have hv : v = v' := by simpa [Memory.get] using hget k
      have hrest : rest = rest' := by
        refine ih h.2 h'.2 fun a => ?_
        by_cases ha : k = a
        · rw [Memory.get_of_wfFrom h.2 (by omega), Memory.get_of_wfFrom h'.2 (by omega)]
        · simpa [Memory.get, ha] using hget a
      rw [hv, hrest]

/-- Equal memories are equal data: canonical memories that read alike are the same list. -/
theorem Memory.ext {m m' : Memory} (h : m.wf = true) (h' : m'.wf = true)
    (hget : ∀ a, Memory.get m a = Memory.get m' a) : m = m' :=
  Memory.ext_wfFrom h h' hget

/-! The same for the state. -/

theorem byteAt_setByte (s : State) (a b v : Byte) :
    (s.setByte a v).byteAt b = if a = b then v else s.byteAt b := by
  simp [State.byteAt, Memory.get_set, BitVec.toNat_inj]

@[simp] theorem byteAt_setByte_same (s : State) (a v : Byte) : (s.setByte a v).byteAt a = v := by
  simp [byteAt_setByte]

theorem byteAt_setByte_other (s : State) {a b : Byte} (v : Byte) (h : b ≠ a) :
    (s.setByte a v).byteAt b = s.byteAt b := by
  simp [byteAt_setByte, h.symm]

theorem wf_setByte {s : State} (a v : Byte) (h : s.mem.wf = true) : (s.setByte a v).mem.wf = true :=
  Memory.wf_set v a.isLt h

/-- Bytes below 256 stored one after another keep the canonical form. -/
theorem wf_storeBytes {s : State} (a : Byte) (bs : List Byte) (h : s.mem.wf = true) :
    (storeBytes a bs s).mem.wf = true := by
  induction bs generalizing a s with
  | nil => exact h
  | cons b rest ih => exact ih (a + 1#8) (wf_setByte a b h)

end Sys2Proof.Machine
end

