-- ==== Sys2Proof/Laws/Registers.lean ====
section
/-! SUPPORT. Laws of the register file (spec/10_state.md R20 to R22). -/

namespace Sys2Proof.Machine

theorem RegFile.read_write (r : RegFile) (i j : Nat) (v : Byte) :
    (r.write i v).read j = if i % 8 = j % 8 then v else r.read j := by
  simp only [RegFile.read, RegFile.write, Vector.getElem_set]

/-- Reading a register of the state after a write (R21: indices modulo 8). -/
theorem reg_setReg (s : State) (i j : Nat) (v : Byte) :
    (s.setReg i v).reg j = if i % 8 = j % 8 then v else s.reg j :=
  RegFile.read_write s.regs i j v

@[simp] theorem reg_setReg_same (s : State) (i : Nat) (v : Byte) : (s.setReg i v).reg i = v := by
  simp [reg_setReg]

theorem reg_setReg_other (s : State) {i j : Nat} (v : Byte) (h : j % 8 ≠ i % 8) : (s.setReg i v).reg j = s.reg j := by
  simp [reg_setReg, h.symm]

/-- An index means its low three bits (R21). -/
theorem reg_mod (s : State) (i : Nat) : s.reg (i % 8) = s.reg i := by
  simp [State.reg, RegFile.read]

theorem setReg_mod (s : State) (i : Nat) (v : Byte) : s.setReg (i % 8) v = s.setReg i v := by
  simp [State.setReg, RegFile.write]

@[simp] theorem setReg_setReg_same (s : State) (i : Nat) (v w : Byte) : (s.setReg i v).setReg i w = s.setReg i w := by
  simp [State.setReg, RegFile.write]

/-- Registers are determined by what reading the indices 0 to 7 gives. -/
theorem regs_ext {s t : State} (h : ∀ j, s.reg j = t.reg j) : s.regs = t.regs := by
  apply Vector.ext
  intro j hj
  simpa [State.reg, RegFile.read, Nat.mod_eq_of_lt hj] using h j

end Sys2Proof.Machine
end

