-- ==== Sys2Proof/Laws/Ops.lean ====
section
/-! SUPPORT. One law per shared operation: everything it does to every field, so that later proofs cite it and do not
unfold it. -/

namespace Sys2Proof.Machine

variable (s : State)

/-! The latch protocol (spec/20_memory.md R53, R54). -/

@[simp] theorem memRead_fst (a : Byte) : (memRead s a).1 = s.byteAt a := rfl
@[simp] theorem memRead_snd (a : Byte) : (memRead s a).2 = s.setLatches a (s.byteAt a) := rfl
@[simp] theorem memWrite_regs (a v : Byte) : (memWrite s a v).regs = s.regs := rfl
@[simp] theorem memWrite_pc (a v : Byte) : (memWrite s a v).pc = s.pc := rfl
@[simp] theorem memWrite_fl (a v : Byte) : (memWrite s a v).fl = s.fl := rfl
@[simp] theorem memWrite_mar (a v : Byte) : (memWrite s a v).mar = a := rfl
@[simp] theorem memWrite_mdr (a v : Byte) : (memWrite s a v).mdr = v := rfl
@[simp] theorem memWrite_ir (a v : Byte) : (memWrite s a v).ir = s.ir := rfl
@[simp] theorem memWrite_opA (a v : Byte) : (memWrite s a v).opA = s.opA := rfl
@[simp] theorem memWrite_opB (a v : Byte) : (memWrite s a v).opB = s.opB := rfl
@[simp] theorem memWrite_halted (a v : Byte) : (memWrite s a v).halted = s.halted := rfl
@[simp] theorem memWrite_ie (a v : Byte) : (memWrite s a v).ie = s.ie := rfl
@[simp] theorem memWrite_status (a v : Byte) : (memWrite s a v).status = s.status := rfl
@[simp] theorem memWrite_out (a v : Byte) : (memWrite s a v).out = s.out := rfl
@[simp] theorem memWrite_loadOpen (a v : Byte) : (memWrite s a v).loadOpen = s.loadOpen := rfl
@[simp] theorem memWrite_params (a v : Byte) : (memWrite s a v).params = s.params := rfl
@[simp] theorem memWrite_reg (a v : Byte) (j : Nat) : (memWrite s a v).reg j = s.reg j := rfl

theorem memWrite_byteAt (a v b : Byte) : (memWrite s a v).byteAt b = if a = b then v else s.byteAt b :=
  byteAt_setByte (s.setLatches a v) a b v

theorem wf_memWrite {s : State} (a v : Byte) (h : s.mem.wf = true) : (memWrite s a v).mem.wf = true :=
  wf_setByte (s := s.setLatches a v) a v h

/-! The stack (R60, R61). -/

theorem push_reg (v : Byte) (j : Nat) : (push s v).reg j = if j % 8 = 7 then s.reg 7 - 1#8 else s.reg j := by
  simp [push, reg_setReg, eq_comm (a := (7 : Nat))]

@[simp] theorem push_sp (v : Byte) : (push s v).reg 7 = s.reg 7 - 1#8 := by simp [push_reg]

theorem push_byteAt (v a : Byte) : (push s v).byteAt a = if s.reg 7 - 1#8 = a then v else s.byteAt a := by
  simp [push, memWrite_byteAt]

theorem wf_push {s : State} (v : Byte) (h : s.mem.wf = true) : (push s v).mem.wf = true :=
  wf_memWrite (s := s.setSp (s.sp - 1#8)) _ v h

@[simp] theorem push_pc (v : Byte) : (push s v).pc = s.pc := by simp [push]
@[simp] theorem push_fl (v : Byte) : (push s v).fl = s.fl := by simp [push]
@[simp] theorem push_mar (v : Byte) : (push s v).mar = s.reg 7 - 1#8 := by simp [push]
@[simp] theorem push_mdr (v : Byte) : (push s v).mdr = v := by simp [push]
@[simp] theorem push_ir (v : Byte) : (push s v).ir = s.ir := by simp [push]
@[simp] theorem push_opA (v : Byte) : (push s v).opA = s.opA := by simp [push]
@[simp] theorem push_opB (v : Byte) : (push s v).opB = s.opB := by simp [push]
@[simp] theorem push_halted (v : Byte) : (push s v).halted = s.halted := by simp [push]
@[simp] theorem push_ie (v : Byte) : (push s v).ie = s.ie := by simp [push]
@[simp] theorem push_status (v : Byte) : (push s v).status = s.status := by simp [push]
@[simp] theorem push_out (v : Byte) : (push s v).out = s.out := by simp [push]
@[simp] theorem push_loadOpen (v : Byte) : (push s v).loadOpen = s.loadOpen := by simp [push]
@[simp] theorem push_params (v : Byte) : (push s v).params = s.params := by simp [push]

@[simp] theorem pop_fst : (pop s).1 = s.byteAt (s.reg 7) := rfl

theorem pop_reg (j : Nat) : (pop s).2.reg j = if j % 8 = 7 then s.reg 7 + 1#8 else s.reg j := by
  simp [pop, reg_setReg, eq_comm (a := (7 : Nat))]

@[simp] theorem pop_sp : (pop s).2.reg 7 = s.reg 7 + 1#8 := by simp [pop_reg]

theorem pop_byteAt (a : Byte) : (pop s).2.byteAt a = if s.reg 7 = a then 0x00#8 else s.byteAt a := by
  simp [pop, memWrite_byteAt]

theorem wf_pop {s : State} (h : s.mem.wf = true) : (pop s).2.mem.wf = true := by
  simpa [pop] using wf_memWrite (s := (memRead s s.sp).2) s.sp 0x00#8 h

@[simp] theorem pop_pc : (pop s).2.pc = s.pc := by simp [pop]
@[simp] theorem pop_fl : (pop s).2.fl = s.fl := by simp [pop]
@[simp] theorem pop_mar : (pop s).2.mar = s.reg 7 := by simp [pop]
@[simp] theorem pop_mdr : (pop s).2.mdr = 0x00#8 := by simp [pop]
@[simp] theorem pop_ir : (pop s).2.ir = s.ir := by simp [pop]
@[simp] theorem pop_opA : (pop s).2.opA = s.opA := by simp [pop]
@[simp] theorem pop_opB : (pop s).2.opB = s.opB := by simp [pop]
@[simp] theorem pop_halted : (pop s).2.halted = s.halted := by simp [pop]
@[simp] theorem pop_ie : (pop s).2.ie = s.ie := by simp [pop]
@[simp] theorem pop_status : (pop s).2.status = s.status := by simp [pop]
@[simp] theorem pop_out : (pop s).2.out = s.out := by simp [pop]
@[simp] theorem pop_loadOpen : (pop s).2.loadOpen = s.loadOpen := by simp [pop]
@[simp] theorem pop_params : (pop s).2.params = s.params := by simp [pop]

/-! The program counter (spec/40_instruction_cycle.md R107, R108). -/

@[simp] theorem advance_regs : s.advance.regs = s.regs := rfl
@[simp] theorem advance_pc : s.advance.pc = s.pc + trunc8 (advanceAmount s.params.advanceMode s.ir) := rfl
@[simp] theorem advance_fl : s.advance.fl = s.fl := rfl
@[simp] theorem advance_mem : s.advance.mem = s.mem := rfl
@[simp] theorem advance_mar : s.advance.mar = s.mar := rfl
@[simp] theorem advance_mdr : s.advance.mdr = s.mdr := rfl
@[simp] theorem advance_ir : s.advance.ir = s.ir := rfl
@[simp] theorem advance_opA : s.advance.opA = s.opA := rfl
@[simp] theorem advance_opB : s.advance.opB = s.opB := rfl
@[simp] theorem advance_halted : s.advance.halted = s.halted := rfl
@[simp] theorem advance_ie : s.advance.ie = s.ie := rfl
@[simp] theorem advance_status : s.advance.status = s.status := rfl
@[simp] theorem advance_out : s.advance.out = s.out := rfl
@[simp] theorem advance_loadOpen : s.advance.loadOpen = s.loadOpen := rfl
@[simp] theorem advance_params : s.advance.params = s.params := rfl
@[simp] theorem advance_reg (j : Nat) : s.advance.reg j = s.reg j := rfl
@[simp] theorem advance_byteAt (a : Byte) : s.advance.byteAt a = s.byteAt a := rfl

theorem finish_eq : finish s = .next s.advance := rfl
theorem jump_eq (target : Byte) : jump s target = .next (s.setPc target) := rfl
theorem jumpIf_eq (c : Bool) (target : Byte) :
    jumpIf c s target = .next (if c then s.setPc target else s.advance) := by
  cases c <;> rfl

/-! Fatal errors and refusals (R109, R110, R254). -/

theorem raise_undefinedOpcode :
    raise .undefinedOpcode s = .fault (.undefinedOpcode s.ir (s.setStatus (.faulted .undefinedOpcode))) := rfl
theorem raise_divisionByZero :
    raise .divisionByZero s = .fault (.divisionByZero (s.setStatus (.faulted .divisionByZero))) := rfl
theorem refuseInt_eq : refuseInt s = .refused (.intWithoutContract (s.setStatus (.refused .int))) := rfl

/-! Fetch (R100). -/

@[simp] theorem fetch_regs : (fetch s).regs = s.regs := rfl
@[simp] theorem fetch_pc : (fetch s).pc = s.pc := rfl
@[simp] theorem fetch_fl : (fetch s).fl = s.fl := rfl
@[simp] theorem fetch_mem : (fetch s).mem = s.mem := rfl
@[simp] theorem fetch_mar : (fetch s).mar = s.pc + 2#8 := rfl
@[simp] theorem fetch_mdr : (fetch s).mdr = s.byteAt (s.pc + 2#8) := rfl
@[simp] theorem fetch_ir : (fetch s).ir = s.byteAt s.pc := rfl
@[simp] theorem fetch_opA : (fetch s).opA = s.byteAt (s.pc + 1#8) := rfl
@[simp] theorem fetch_opB : (fetch s).opB = s.byteAt (s.pc + 2#8) := rfl
@[simp] theorem fetch_halted : (fetch s).halted = s.halted := rfl
@[simp] theorem fetch_ie : (fetch s).ie = s.ie := rfl
@[simp] theorem fetch_status : (fetch s).status = s.status := rfl
@[simp] theorem fetch_out : (fetch s).out = s.out := rfl
@[simp] theorem fetch_loadOpen : (fetch s).loadOpen = s.loadOpen := rfl
@[simp] theorem fetch_params : (fetch s).params = s.params := rfl
@[simp] theorem fetch_reg (j : Nat) : (fetch s).reg j = s.reg j := rfl
@[simp] theorem fetch_byteAt (a : Byte) : (fetch s).byteAt a = s.byteAt a := rfl

/-! Stored bytes (spec/70_reset_and_hazards.md R281) and the halt status (R104). -/

theorem storeBytes_others (a : Byte) (bs : List Byte) :
    storeBytes a bs s = s.setMem (storeBytes a bs s).mem := by
  induction bs generalizing a s with
  | nil => rfl
  | cons b rest ih => simpa [storeBytes, State.setByte, State.setMem] using ih (s.setByte a b) (a + 1#8)

theorem settleHalt_eq : settleHalt s = if s.halted then s.setStatus .halted else s := rfl

end Sys2Proof.Machine
end

