-- ==== Sys2Proof/Laws/Exec.lean ====
section
/-! SUPPORT. What exec can do, said once: the next state of each instruction over the shared operations, when it is reached,
and what happens otherwise; then what every handler leaves alone. -/

namespace Sys2Proof.Machine

variable (s : State)

/-- The one state an instruction can lead to when it completes. -/
def execNext (s : State) : Instr → State
  | .nop => s.advance
  | .hlt => (s.setHalted true).advance
  | .ret => (pop s).2.setPc (s.byteAt (s.reg 7))
  | .iret => ((pop (popFl (popRegs s))).2.setIe true).setPc (pop (popFl (popRegs s))).1
  | .push ra => (push s (s.reg ra)).advance
  | .pop ra => ((pop s).2.setReg ra (s.byteAt (s.reg 7))).advance
  | .prn ra => (emit s (.dec (s.reg ra))).advance
  | .pra ra => (emit s (.chr (s.reg ra))).advance
  | .call ra => (push s (s.pc + 2#8)).setPc ((push s (s.pc + 2#8)).reg ra)
  | .int _ => s.advance
  | .jmp ra => s.setPc (s.reg ra)
  | .jeq ra => if condEq s.fl then s.setPc (s.reg ra) else s.advance
  | .jne ra => if condNe s.fl then s.setPc (s.reg ra) else s.advance
  | .jgt ra => if condGt s.fl then s.setPc (s.reg ra) else s.advance
  | .jlt ra => if condLt s.fl then s.setPc (s.reg ra) else s.advance
  | .jle ra => if condLe s.fl then s.setPc (s.reg ra) else s.advance
  | .jge ra => if condGe s.fl then s.setPc (s.reg ra) else s.advance
  | .ldi ra imm => (s.setReg ra imm).advance
  | .ld ra rb => ((s.setLatches (s.reg rb) (s.byteAt (s.reg rb))).setReg ra (s.byteAt (s.reg rb))).advance
  | .st ra rb => (memWrite s (s.reg ra) (s.reg rb)).advance
  | .inc ra => (s.setReg ra (aluInc (s.reg ra))).advance
  | .dec ra => (s.setReg ra (aluDec (s.reg ra))).advance
  | .not ra => (s.setReg ra (aluNot (s.reg ra))).advance
  | .add ra rb => (s.setReg ra (aluAdd (s.reg ra) (s.reg rb))).advance
  | .sub ra rb => (s.setReg ra (aluSub (s.reg ra) (s.reg rb))).advance
  | .mul ra rb => (s.setReg ra (aluMul (s.reg ra) (s.reg rb))).advance
  | .div ra rb => (s.setReg ra (aluDiv (s.reg ra) (s.reg rb))).advance
  | .mod ra rb => (s.setReg ra (aluMod (s.reg ra) (s.reg rb))).advance
  | .and ra rb => (s.setReg ra (aluAnd (s.reg ra) (s.reg rb))).advance
  | .or ra rb => (s.setReg ra (aluOr (s.reg ra) (s.reg rb))).advance
  | .xor ra rb => (s.setReg ra (aluXor (s.reg ra) (s.reg rb))).advance
  | .shl ra rb => (s.setReg ra (aluShl (s.reg ra) (s.reg rb))).advance
  | .shr ra rb => (s.setReg ra (aluShr (s.reg ra) (s.reg rb))).advance
  | .cmp ra rb => (s.setFl (compareFlags s.fl (s.reg ra) (s.reg rb))).advance

/-- Inversion: exec completes in `execNext`, or a DIV or MOD has a zero divisor, or INT is refused. -/
theorem exec_cases (i : Instr) (s : State) :
    exec i s = .next (execNext s i) ∨
    (exec i s = .fault (.divisionByZero (s.setStatus (.faulted .divisionByZero))) ∧
      ∃ ra rb, (i = .div ra rb ∨ i = .mod ra rb) ∧ s.reg rb = 0x00#8) ∨
    (exec i s = .refused (.intWithoutContract (s.setStatus (.refused .int))) ∧
      (∃ ra, i = .int ra) ∧ s.params.intMode = .refuse) := by
  cases i
  case div ra rb =>
    by_cases h : s.reg rb = 0x00#8
    · exact .inr (.inl ⟨if_pos h, ra, rb, .inl rfl, h⟩)
    · exact .inl (if_neg h)
  case mod ra rb =>
    by_cases h : s.reg rb = 0x00#8
    · exact .inr (.inl ⟨if_pos h, ra, rb, .inr rfl, h⟩)
    · exact .inl (if_neg h)
  case int ra =>
    by_cases h : s.params.intMode = .refuse
    · exact .inr (.inr ⟨by simp [exec, execInt, h, refuseInt_eq], ⟨ra, rfl⟩, h⟩)
    · have h' : s.params.intMode = .stubNop := by cases hm : s.params.intMode <;> simp_all
      exact .inl (by simp [exec, execInt, h', finish_eq, execNext])
  case jeq ra => exact .inl (jumpIf_eq s _ _)
  case jne ra => exact .inl (jumpIf_eq s _ _)
  case jgt ra => exact .inl (jumpIf_eq s _ _)
  case jlt ra => exact .inl (jumpIf_eq s _ _)
  case jle ra => exact .inl (jumpIf_eq s _ _)
  case jge ra => exact .inl (jumpIf_eq s _ _)
  all_goals exact .inl rfl

/-- An instruction that is not DIV, MOD or INT completes in every state. -/
theorem exec_eq_next {i : Instr} (s : State) (hd : ∀ ra rb, i ≠ .div ra rb) (hm : ∀ ra rb, i ≠ .mod ra rb)
    (hi : ∀ ra, i ≠ .int ra) : exec i s = .next (execNext s i) := by
  rcases exec_cases i s with h | ⟨-, ra, rb, h | h, -⟩ | ⟨-, ⟨ra, h⟩, -⟩
  · exact h
  · exact absurd h (hd ra rb)
  · exact absurd h (hm ra rb)
  · exact absurd h (hi ra)

theorem exec_div (ra rb : Nat) (h : s.reg rb ≠ 0x00#8) : exec (.div ra rb) s = .next (execNext s (.div ra rb)) := if_neg h
theorem exec_mod (ra rb : Nat) (h : s.reg rb ≠ 0x00#8) : exec (.mod ra rb) s = .next (execNext s (.mod ra rb)) := if_neg h

theorem exec_next_eq {i : Instr} {s t : State} (h : exec i s = .next t) : t = execNext s i := by
  rcases exec_cases i s with h' | ⟨h', -⟩ | ⟨h', -⟩ <;> rw [h'] at h <;> simp_all

/-- A handler's only fault: a zero divisor in DIV or MOD, with nothing written but the status. -/
theorem exec_fault_cases {i : Instr} {s : State} {f : Fault} (h : exec i s = .fault f) :
    f = .divisionByZero (s.setStatus (.faulted .divisionByZero)) ∧
      ∃ ra rb, (i = .div ra rb ∨ i = .mod ra rb) ∧ s.reg rb = 0x00#8 := by
  rcases exec_cases i s with h' | ⟨h', hi⟩ | ⟨h', -⟩ <;> rw [h'] at h
  · simp at h
  · exact ⟨by simpa using h.symm, hi⟩
  · simp at h

/-- A handler's only refusal: INT under INT_MODE = refuse, with nothing written but the status. -/
theorem exec_refused_cases {i : Instr} {s : State} {r : Refusal} (h : exec i s = .refused r) :
    r = .intWithoutContract (s.setStatus (.refused .int)) ∧ (∃ ra, i = .int ra) ∧ s.params.intMode = .refuse := by
  rcases exec_cases i s with h' | ⟨h', -⟩ | ⟨h', hi⟩ <;> rw [h'] at h
  · simp at h
  · simp at h
  · exact ⟨by simpa using h.symm, hi⟩

/-! What IRET's pops leave alone. -/

@[simp] theorem popReg_pc (i : Nat) : (popReg i s).pc = s.pc := by simp [popReg]
@[simp] theorem popRegs_pc : (popRegs s).pc = s.pc := by simp [popRegs]
@[simp] theorem popFl_pc : (popFl s).pc = s.pc := by simp [popFl]
@[simp] theorem popReg_fl (i : Nat) : (popReg i s).fl = s.fl := by simp [popReg]
@[simp] theorem popRegs_fl : (popRegs s).fl = s.fl := by simp [popRegs]
@[simp] theorem popReg_ir (i : Nat) : (popReg i s).ir = s.ir := by simp [popReg]
@[simp] theorem popRegs_ir : (popRegs s).ir = s.ir := by simp [popRegs]
@[simp] theorem popFl_ir : (popFl s).ir = s.ir := by simp [popFl]
@[simp] theorem popReg_opA (i : Nat) : (popReg i s).opA = s.opA := by simp [popReg]
@[simp] theorem popRegs_opA : (popRegs s).opA = s.opA := by simp [popRegs]
@[simp] theorem popFl_opA : (popFl s).opA = s.opA := by simp [popFl]
@[simp] theorem popReg_opB (i : Nat) : (popReg i s).opB = s.opB := by simp [popReg]
@[simp] theorem popRegs_opB : (popRegs s).opB = s.opB := by simp [popRegs]
@[simp] theorem popFl_opB : (popFl s).opB = s.opB := by simp [popFl]
@[simp] theorem popReg_halted (i : Nat) : (popReg i s).halted = s.halted := by simp [popReg]
@[simp] theorem popRegs_halted : (popRegs s).halted = s.halted := by simp [popRegs]
@[simp] theorem popFl_halted : (popFl s).halted = s.halted := by simp [popFl]
@[simp] theorem popReg_ie (i : Nat) : (popReg i s).ie = s.ie := by simp [popReg]
@[simp] theorem popRegs_ie : (popRegs s).ie = s.ie := by simp [popRegs]
@[simp] theorem popFl_ie : (popFl s).ie = s.ie := by simp [popFl]
@[simp] theorem popReg_status (i : Nat) : (popReg i s).status = s.status := by simp [popReg]
@[simp] theorem popRegs_status : (popRegs s).status = s.status := by simp [popRegs]
@[simp] theorem popFl_status : (popFl s).status = s.status := by simp [popFl]
@[simp] theorem popReg_out (i : Nat) : (popReg i s).out = s.out := by simp [popReg]
@[simp] theorem popRegs_out : (popRegs s).out = s.out := by simp [popRegs]
@[simp] theorem popFl_out : (popFl s).out = s.out := by simp [popFl]
@[simp] theorem popReg_loadOpen (i : Nat) : (popReg i s).loadOpen = s.loadOpen := by simp [popReg]
@[simp] theorem popRegs_loadOpen : (popRegs s).loadOpen = s.loadOpen := by simp [popRegs]
@[simp] theorem popFl_loadOpen : (popFl s).loadOpen = s.loadOpen := by simp [popFl]
@[simp] theorem popReg_params (i : Nat) : (popReg i s).params = s.params := by simp [popReg]
@[simp] theorem popRegs_params : (popRegs s).params = s.params := by simp [popRegs]
@[simp] theorem popFl_params : (popFl s).params = s.params := by simp [popFl]
@[simp] theorem popFl_fl : (popFl s).fl = s.byteAt (s.reg 7) := by simp [popFl]

theorem wf_popReg {s : State} (i : Nat) (h : s.mem.wf = true) : (popReg i s).mem.wf = true := by
  simpa [popReg] using wf_pop h

theorem wf_popFl {s : State} (h : s.mem.wf = true) : (popFl s).mem.wf = true := by
  simpa [popFl] using wf_pop h

theorem wf_popRegs {s : State} (h : s.mem.wf = true) : (popRegs s).mem.wf = true := by
  unfold popRegs
  repeat apply wf_popReg
  exact h

/-! What every handler leaves alone: the status, the fetched bytes, the load admission, the parameters. -/

@[simp] theorem execNext_status (i : Instr) : (execNext s i).status = s.status := by
  cases i <;> simp only [execNext] <;> (try split) <;> simp
@[simp] theorem execNext_ir (i : Instr) : (execNext s i).ir = s.ir := by
  cases i <;> simp only [execNext] <;> (try split) <;> simp
@[simp] theorem execNext_opA (i : Instr) : (execNext s i).opA = s.opA := by
  cases i <;> simp only [execNext] <;> (try split) <;> simp
@[simp] theorem execNext_opB (i : Instr) : (execNext s i).opB = s.opB := by
  cases i <;> simp only [execNext] <;> (try split) <;> simp
@[simp] theorem execNext_loadOpen (i : Instr) : (execNext s i).loadOpen = s.loadOpen := by
  cases i <;> simp only [execNext] <;> (try split) <;> simp
@[simp] theorem execNext_params (i : Instr) : (execNext s i).params = s.params := by
  cases i <;> simp only [execNext] <;> (try split) <;> simp

/-- Only HLT sets `halted` (spec/10_state.md R31). -/
theorem execNext_halted (i : Instr) : (execNext s i).halted = (decide (i = .hlt) || s.halted) := by
  cases i <;> simp only [execNext] <;> (try split) <;> simp

/-- Every handler keeps memory canonical. -/
theorem wf_execNext {s : State} (i : Instr) (h : s.mem.wf = true) : (execNext s i).mem.wf = true := by
  have hpush := fun v => wf_push v h
  have hiret := wf_pop (wf_popFl (wf_popRegs h))
  cases i <;> simp only [execNext] <;> (try split) <;> simp [h, hpush, wf_pop h, hiret, wf_memWrite]

end Sys2Proof.Machine
end

