-- ==== Sys2Proof/Laws/Flags.lean ====
section
/-! SUPPORT. The flag byte bit by bit: what `setFlag` and the comparison of CMP do to each bit (spec/10_state.md R27,
spec/47_alu.md R218). -/

namespace Sys2Proof.Machine

theorem getLsbD_one_shiftLeft : ∀ j < 8, ∀ k < 8, (1#8 <<< j).getLsbD k = decide (k = j) := by decide

/-- Bit `k` after setting bit `j`. -/
theorem setFlag_bit (fl : Byte) (j k : Nat) (b : Bool) (hj : j < 8) (hk : k < 8) :
    (setFlag fl j b).getLsbD k = if k = j then b else fl.getLsbD k := by
  have m := getLsbD_one_shiftLeft j hj k hk
  unfold setFlag
  rw [Nat.mod_eq_of_lt hj]
  by_cases h : k = j <;> cases b <;>
    simp only [if_true, Bool.false_eq_true, if_false, BitVec.getLsbD_or, BitVec.getLsbD_and, BitVec.getLsbD_not, m, h, hk,
      hj] <;> simp [hj]

theorem setFlag_flagE (fl : Byte) (k : Nat) (b : Bool) (hk : k < 8) :
    (setFlag fl flagE b).getLsbD k = if k = 0 then b else fl.getLsbD k := setFlag_bit fl 0 k b (by decide) hk
theorem setFlag_flagG (fl : Byte) (k : Nat) (b : Bool) (hk : k < 8) :
    (setFlag fl flagG b).getLsbD k = if k = 1 then b else fl.getLsbD k := setFlag_bit fl 1 k b (by decide) hk
theorem setFlag_flagL (fl : Byte) (k : Nat) (b : Bool) (hk : k < 8) :
    (setFlag fl flagL b).getLsbD k = if k = 2 then b else fl.getLsbD k := setFlag_bit fl 2 k b (by decide) hk

/-- Every bit of the flags a comparison leaves. -/
theorem compareFlags_bit (fl x y : Byte) (k : Nat) (hk : k < 8) :
    (compareFlags fl x y).getLsbD k =
      if k = 0 then decide (x.toNat = y.toNat)
      else if k = 1 then decide (y.toNat < x.toNat)
      else if k = 2 then decide (x.toNat < y.toNat)
      else fl.getLsbD k := by
  unfold compareFlags
  dsimp only
  split <;> [skip; split] <;> simp only [setFlag_flagE, setFlag_flagG, setFlag_flagL, hk] <;>
    (by_cases h0 : k = 0 <;> [skip; (by_cases h1 : k = 1 <;> [skip; by_cases h2 : k = 2])]) <;> simp_all <;> omega

end Sys2Proof.Machine
end

