-- ==== Sys2Proof/Laws/Frames.lean ====
section
/-! SUPPORT. What a run of pops and a run of stores leave in memory and in the registers: the seven register pops of IRET
(spec/45_call_interrupt.md R182) and the stores of a load (spec/70_reset_and_hazards.md R281). -/

namespace Sys2Proof.Machine

/-- `x[i] <- pop()` for a register other than SP. -/
theorem popReg_spec (i : Nat) (hi : i < 7) (u : State) :
    (popReg i u).reg 7 = u.reg 7 + 1#8 ∧ (popReg i u).reg i = u.byteAt (u.reg 7) ∧
    (∀ j < 7, j ≠ i → (popReg i u).reg j = u.reg j) ∧
    ∀ a, (popReg i u).byteAt a = if u.reg 7 = a then 0x00#8 else u.byteAt a := by
  unfold popReg
  refine ⟨?_, ?_, ?_, ?_⟩
  · simp [reg_setReg]; omega
  · simp
  · intro j hj hne; simp only [reg_setReg, pop_reg]; rw [if_neg (by omega), if_neg (by omega)]
  · intro a; simp [pop_byteAt]

/-- Clearing the cell at offset `k` after the cells at offsets below `k`. -/
theorem clear_next (x a v : Byte) (k : Nat) (hk : k < 255) :
    (if x + BitVec.ofNat 8 k = a then 0x00#8 else if (a - x).toNat < k then 0x00#8 else v) =
      if (a - x).toNat < k + 1 then 0x00#8 else v := by
  have e : (x + BitVec.ofNat 8 k = a) ↔ (a - x).toNat = k := by
    constructor
    · rintro rfl; rw [BitVec.add_comm, BitVec.add_sub_cancel]; simp; omega
    · rintro rfl; rw [BitVec.ofNat_toNat, BitVec.setWidth_eq, BitVec.add_comm]; exact BitVec.sub_add_cancel a x
  by_cases h : (a - x).toNat = k
  · rw [if_pos (e.2 h), if_pos (by omega)]
  · rw [if_neg (fun h' => h (e.1 h'))]
    by_cases h2 : (a - x).toNat < k
    · rw [if_pos h2, if_pos (by omega)]
    · rw [if_neg h2, if_neg (by omega)]

theorem toNat_offset (x : Byte) (k : Nat) (hk : k < 256) : (x + BitVec.ofNat 8 k - x).toNat = k := by
  rw [BitVec.add_comm, BitVec.add_sub_cancel]; simp; omega

/-- One register pop in a row of pops that began at SP = `x` in the state `s`, after `k` of them. -/
theorem popReg_after (x : Byte) (s u : State) (k i : Nat) (hk : k < 255) (hi : i < 7)
    (h7 : u.reg 7 = x + BitVec.ofNat 8 k) (hb : ∀ a, u.byteAt a = if (a - x).toNat < k then 0x00#8 else s.byteAt a) :
    (popReg i u).reg 7 = x + BitVec.ofNat 8 (k + 1) ∧
    (∀ a, (popReg i u).byteAt a = if (a - x).toNat < k + 1 then 0x00#8 else s.byteAt a) ∧
    (popReg i u).reg i = s.byteAt (x + BitVec.ofNat 8 k) ∧ (∀ j < 7, j ≠ i → (popReg i u).reg j = u.reg j) := by
  obtain ⟨a, b, c, d⟩ := popReg_spec i hi u
  refine ⟨?_, ?_, ?_, c⟩
  · rw [a, h7, BitVec.add_assoc]; congr 1; simp [BitVec.ofNat_add]
  · intro y; rw [d, h7, hb, clear_next x y _ k hk]
  · rw [b, h7, hb, toNat_offset x k (by omega), if_neg (by omega)]

/-- The seven register pops of IRET: SP, memory, and the seven registers from the frame. -/
theorem popRegs_spec (s : State) :
    (popRegs s).reg 7 = s.reg 7 + 7#8 ∧
    (∀ a, (popRegs s).byteAt a = if (a - s.reg 7).toNat < 7 then 0x00#8 else s.byteAt a) ∧
    ∀ j < 7, (popRegs s).reg j = s.byteAt (s.reg 7 + BitVec.ofNat 8 (6 - j)) := by
  obtain ⟨a6, d6, b6, c6⟩ := popReg_after (s.reg 7) s s 0 6 (by decide) (by decide) (by simp) (by simp)
  obtain ⟨a5, d5, b5, c5⟩ := popReg_after (s.reg 7) s _ 1 5 (by decide) (by decide) a6 d6
  obtain ⟨a4, d4, b4, c4⟩ := popReg_after (s.reg 7) s _ 2 4 (by decide) (by decide) a5 d5
  obtain ⟨a3, d3, b3, c3⟩ := popReg_after (s.reg 7) s _ 3 3 (by decide) (by decide) a4 d4
  obtain ⟨a2, d2, b2, c2⟩ := popReg_after (s.reg 7) s _ 4 2 (by decide) (by decide) a3 d3
  obtain ⟨a1, d1, b1, c1⟩ := popReg_after (s.reg 7) s _ 5 1 (by decide) (by decide) a2 d2
  obtain ⟨a0, d0, b0, c0⟩ := popReg_after (s.reg 7) s _ 6 0 (by decide) (by decide) a1 d1
  refine ⟨a0, d0, fun j hj => ?_⟩
  unfold popRegs
  interval_cases j
  · exact b0
  · rw [c0 1 (by decide) (by decide)]; exact b1
  · rw [c0 2 (by decide) (by decide), c1 2 (by decide) (by decide)]; exact b2
  · rw [c0 3 (by decide) (by decide), c1 3 (by decide) (by decide), c2 3 (by decide) (by decide)]; exact b3
  · rw [c0 4 (by decide) (by decide), c1 4 (by decide) (by decide), c2 4 (by decide) (by decide),
      c3 4 (by decide) (by decide)]; exact b4
  · rw [c0 5 (by decide) (by decide), c1 5 (by decide) (by decide), c2 5 (by decide) (by decide),
      c3 5 (by decide) (by decide), c4 5 (by decide) (by decide)]; exact b5
  · rw [c0 6 (by decide) (by decide), c1 6 (by decide) (by decide), c2 6 (by decide) (by decide),
      c3 6 (by decide) (by decide), c4 6 (by decide) (by decide), c5 6 (by decide) (by decide)]; exact b6

/-- The seven register pops and the pop of FL: SP, FL, memory and the registers. -/
theorem popFl_popRegs_spec (s : State) :
    (popFl (popRegs s)).reg 7 = s.reg 7 + 8#8 ∧ (popFl (popRegs s)).fl = s.byteAt (s.reg 7 + 7#8) ∧
    (∀ a, (popFl (popRegs s)).byteAt a = if (a - s.reg 7).toNat < 8 then 0x00#8 else s.byteAt a) ∧
    ∀ j < 7, (popFl (popRegs s)).reg j = s.byteAt (s.reg 7 + BitVec.ofNat 8 (6 - j)) := by
  obtain ⟨h7, hb, hr⟩ := popRegs_spec s
  generalize popRegs s = u at h7 hb hr ⊢
  have hreg : ∀ j, (popFl u).reg j = (pop u).2.reg j := fun _ => rfl
  have hbyte : ∀ a, (popFl u).byteAt a = (pop u).2.byteAt a := fun _ => rfl
  refine ⟨?_, ?_, ?_, ?_⟩
  · rw [hreg, pop_reg, h7]; simp [BitVec.add_assoc]
  · rw [popFl_fl, h7, hb, toNat_offset _ 7 (by decide)]; rfl
  · intro a; rw [hbyte, pop_byteAt, h7, hb]; exact clear_next _ _ _ 7 (by decide)
  · intro j hj; rw [hreg, pop_reg, if_neg (by omega), hr j hj]

/-- Memory after storing at most 256 bytes from `a0` upward. -/
theorem byteAt_storeBytes (bs : List Byte) (s : State) (a0 a : Byte) (h : bs.length ≤ 256) :
    (storeBytes a0 bs s).byteAt a = (bs[(a - a0).toNat]?).getD (s.byteAt a) := by
  induction bs generalizing s a0 with
  | nil => rfl
  | cons b rest ih =>
    simp only [List.length_cons] at h
    simp only [storeBytes]
    rw [ih _ _ (by omega), byteAt_setByte]
    by_cases ha : a0 = a
    · subst ha
      have h1 : (a0 - (a0 + 1#8)).toNat = 255 := by bv_omega
      have h2 : (a0 - a0).toNat = 0 := by simp
      rw [h1, h2, List.getElem?_eq_none (by omega)]
      simp
    · have h1 : (a - a0).toNat = (a - (a0 + 1#8)).toNat + 1 := by bv_omega
      rw [h1]; simp [ha]

end Sys2Proof.Machine
end

