-- ==== Sys2Proof/Laws/PerInstr.lean ====
section
/-! SUPPORT. Per instruction: the operand bytes an assembler writes give the instruction back (spec/30_encoding.md R83,
R90). -/

namespace Sys2Proof.Laws.OperandBytes

/-- Operand extraction (R102) undoes the writing of the operand bytes. -/
def Statement (i : Instr) : Prop :=
  i.wellFormed = true → i.op.toInstr i.operandBytes.1 i.operandBytes.2 = i

theorem nop : Statement .nop := fun _ => rfl
theorem hlt : Statement .hlt := fun _ => rfl
theorem ret : Statement .ret := fun _ => rfl
theorem iret : Statement .iret := fun _ => rfl
theorem push (ra : Nat) : Statement (.push ra) := fun h => congrArg Instr.push (regIndex_regByte h)
theorem pop (ra : Nat) : Statement (.pop ra) := fun h => congrArg Instr.pop (regIndex_regByte h)
theorem prn (ra : Nat) : Statement (.prn ra) := fun h => congrArg Instr.prn (regIndex_regByte h)
theorem pra (ra : Nat) : Statement (.pra ra) := fun h => congrArg Instr.pra (regIndex_regByte h)
theorem call (ra : Nat) : Statement (.call ra) := fun h => congrArg Instr.call (regIndex_regByte h)
theorem int (ra : Nat) : Statement (.int ra) := fun h => congrArg Instr.int (regIndex_regByte h)
theorem jmp (ra : Nat) : Statement (.jmp ra) := fun h => congrArg Instr.jmp (regIndex_regByte h)
theorem jeq (ra : Nat) : Statement (.jeq ra) := fun h => congrArg Instr.jeq (regIndex_regByte h)
theorem jne (ra : Nat) : Statement (.jne ra) := fun h => congrArg Instr.jne (regIndex_regByte h)
theorem jgt (ra : Nat) : Statement (.jgt ra) := fun h => congrArg Instr.jgt (regIndex_regByte h)
theorem jlt (ra : Nat) : Statement (.jlt ra) := fun h => congrArg Instr.jlt (regIndex_regByte h)
theorem jle (ra : Nat) : Statement (.jle ra) := fun h => congrArg Instr.jle (regIndex_regByte h)
theorem jge (ra : Nat) : Statement (.jge ra) := fun h => congrArg Instr.jge (regIndex_regByte h)
theorem ldi (ra : Nat) (imm : Byte) : Statement (.ldi ra imm) := fun h =>
  congrArg (Instr.ldi · imm) (regIndex_regByte h)
theorem ld (ra rb : Nat) : Statement (.ld ra rb) := fun h =>
  have h := Bool.and_eq_true_iff.1 h
  congrArg₂ Instr.ld (regIndex_regByte h.1) (regIndex_regByte h.2)
theorem st (ra rb : Nat) : Statement (.st ra rb) := fun h =>
  have h := Bool.and_eq_true_iff.1 h
  congrArg₂ Instr.st (regIndex_regByte h.1) (regIndex_regByte h.2)
theorem add (ra rb : Nat) : Statement (.add ra rb) := fun h =>
  have h := Bool.and_eq_true_iff.1 h
  congrArg₂ Instr.add (regIndex_regByte h.1) (regIndex_regByte h.2)
theorem sub (ra rb : Nat) : Statement (.sub ra rb) := fun h =>
  have h := Bool.and_eq_true_iff.1 h
  congrArg₂ Instr.sub (regIndex_regByte h.1) (regIndex_regByte h.2)
theorem mul (ra rb : Nat) : Statement (.mul ra rb) := fun h =>
  have h := Bool.and_eq_true_iff.1 h
  congrArg₂ Instr.mul (regIndex_regByte h.1) (regIndex_regByte h.2)
theorem div (ra rb : Nat) : Statement (.div ra rb) := fun h =>
  have h := Bool.and_eq_true_iff.1 h
  congrArg₂ Instr.div (regIndex_regByte h.1) (regIndex_regByte h.2)
theorem mod (ra rb : Nat) : Statement (.mod ra rb) := fun h =>
  have h := Bool.and_eq_true_iff.1 h
  congrArg₂ Instr.mod (regIndex_regByte h.1) (regIndex_regByte h.2)
theorem inc (ra : Nat) : Statement (.inc ra) := fun h => congrArg Instr.inc (regIndex_regByte h)
theorem dec (ra : Nat) : Statement (.dec ra) := fun h => congrArg Instr.dec (regIndex_regByte h)
theorem cmp (ra rb : Nat) : Statement (.cmp ra rb) := fun h =>
  have h := Bool.and_eq_true_iff.1 h
  congrArg₂ Instr.cmp (regIndex_regByte h.1) (regIndex_regByte h.2)
theorem and (ra rb : Nat) : Statement (.and ra rb) := fun h =>
  have h := Bool.and_eq_true_iff.1 h
  congrArg₂ Instr.and (regIndex_regByte h.1) (regIndex_regByte h.2)
theorem not (ra : Nat) : Statement (.not ra) := fun h => congrArg Instr.not (regIndex_regByte h)
theorem or (ra rb : Nat) : Statement (.or ra rb) := fun h =>
  have h := Bool.and_eq_true_iff.1 h
  congrArg₂ Instr.or (regIndex_regByte h.1) (regIndex_regByte h.2)
theorem xor (ra rb : Nat) : Statement (.xor ra rb) := fun h =>
  have h := Bool.and_eq_true_iff.1 h
  congrArg₂ Instr.xor (regIndex_regByte h.1) (regIndex_regByte h.2)
theorem shl (ra rb : Nat) : Statement (.shl ra rb) := fun h =>
  have h := Bool.and_eq_true_iff.1 h
  congrArg₂ Instr.shl (regIndex_regByte h.1) (regIndex_regByte h.2)
theorem shr (ra rb : Nat) : Statement (.shr ra rb) := fun h =>
  have h := Bool.and_eq_true_iff.1 h
  congrArg₂ Instr.shr (regIndex_regByte h.1) (regIndex_regByte h.2)

end Sys2Proof.Laws.OperandBytes
end

