-- ==== Sys2Proof/Laws/Step.lean ====
section
/-! SUPPORT. What a step can do, said once, over the laws of exec (spec/40_instruction_cycle.md R104, R109, R111). -/

namespace Sys2Proof.Machine

variable (s : State)

/-! The state a handler sees. -/

@[simp] theorem fetched_regs : (fetched s).regs = s.regs := rfl
@[simp] theorem fetched_reg (j : Nat) : (fetched s).reg j = s.reg j := rfl
@[simp] theorem fetched_byteAt (a : Byte) : (fetched s).byteAt a = s.byteAt a := rfl
@[simp] theorem fetched_pc : (fetched s).pc = s.pc := rfl
@[simp] theorem fetched_fl : (fetched s).fl = s.fl := rfl
@[simp] theorem fetched_mem : (fetched s).mem = s.mem := rfl
@[simp] theorem fetched_halted : (fetched s).halted = s.halted := rfl
@[simp] theorem fetched_ie : (fetched s).ie = s.ie := rfl
@[simp] theorem fetched_status : (fetched s).status = s.status := rfl
@[simp] theorem fetched_out : (fetched s).out = s.out := rfl
@[simp] theorem fetched_params : (fetched s).params = s.params := rfl
@[simp] theorem fetched_loadOpen : (fetched s).loadOpen = false := rfl
@[simp] theorem fetched_ir : (fetched s).ir = s.byteAt s.pc := rfl
@[simp] theorem fetched_opA : (fetched s).opA = s.byteAt (s.pc + 1#8) := rfl
@[simp] theorem fetched_opB : (fetched s).opB = s.byteAt (s.pc + 2#8) := rfl
@[simp] theorem fetched_mar : (fetched s).mar = s.pc + 2#8 := rfl
@[simp] theorem fetched_mdr : (fetched s).mdr = s.byteAt (s.pc + 2#8) := rfl

theorem settleHalt_of_not_halted {s : State} (h : s.halted = false) : settleHalt s = s := by
  simp [settleHalt, h]

/-- A step out of a state that is not Running (R111). -/
theorem step_not_running {s : State} (h : s.status ≠ .running) : step s = .next s := by
  simp [step, h, noTransition]

/-- The instruction a Running state is about to execute, if its bytes decode. -/
def nextInstr (s : State) : Except DecodeError Instr :=
  decodeFetched s.params (s.byteAt s.pc) (s.byteAt (s.pc + 1#8)) (s.byteAt (s.pc + 2#8))

theorem step_running_ok {s : State} {i : Instr} (h : s.status = .running) (hi : nextInstr s = .ok i) :
    step s = afterExecute (exec i (fetched s)) := by
  unfold nextInstr at hi
  simp [step, h, cycle, hi]

theorem step_running_error {s : State} {e : DecodeError} (h : s.status = .running) (hi : nextInstr s = .error e) :
    step s = .fault (.undefinedOpcode (s.byteAt s.pc) ((fetched s).setStatus (.faulted .undefinedOpcode))) := by
  unfold nextInstr at hi
  simp [step, h, cycle, hi, raise_undefinedOpcode]

/-- Inversion of a step: no transition, an undefined opcode, or an instruction that completes, divides by zero or is
refused. -/
theorem step_cases (s : State) :
    (s.status ≠ .running ∧ step s = .next s) ∨
    (s.status = .running ∧ ∃ e, nextInstr s = .error e ∧
      step s = .fault (.undefinedOpcode (s.byteAt s.pc) ((fetched s).setStatus (.faulted .undefinedOpcode)))) ∨
    (s.status = .running ∧ ∃ i, nextInstr s = .ok i ∧
      (step s = .next (settleHalt (execNext (fetched s) i)) ∨
        (step s = .fault (.divisionByZero ((fetched s).setStatus (.faulted .divisionByZero))) ∧
          ∃ ra rb, (i = .div ra rb ∨ i = .mod ra rb) ∧ s.reg rb = 0x00#8) ∨
        (step s = .refused (.intWithoutContract ((fetched s).setStatus (.refused .int))) ∧
          (∃ ra, i = .int ra) ∧ s.params.intMode = .refuse))) := by
  by_cases h : s.status = .running
  · cases hi : nextInstr s with
    | error e => exact .inr (.inl ⟨h, e, rfl, step_running_error h hi⟩)
    | ok i =>
      refine .inr (.inr ⟨h, i, rfl, ?_⟩)
      rw [step_running_ok h hi]
      rcases exec_cases i (fetched s) with h' | ⟨h', hd⟩ | ⟨h', hr⟩ <;> rw [h']
      · exact .inl rfl
      · exact .inr (.inl ⟨rfl, hd⟩)
      · exact .inr (.inr ⟨rfl, hr⟩)
  · exact .inl ⟨h, step_not_running h⟩

/-- Every step leaves a state, whatever its outcome (R109). -/
theorem resultState_step (s : State) : ∃ t, resultState (step s) = some t := by
  rcases step_cases s with ⟨-, h⟩ | ⟨-, e, -, h⟩ | ⟨-, i, -, h | ⟨h, -⟩ | ⟨h, -⟩⟩ <;> rw [h] <;> exact ⟨_, rfl⟩

/-! The run loop (R112), one unfolding a case. -/

theorem run_of_not_running {s : State} (h : s.status ≠ .running) (n : Nat) : run n s = some s := by
  cases n <;> simp [run, h]

theorem run_zero_of_running {s : State} (h : s.status = .running) : run 0 s = none := by simp [run, h]

theorem run_succ_of_running {s u : State} (h : s.status = .running) (hu : resultState (step s) = some u) (n : Nat) :
    run (n + 1) s = run n u := by
  simp [run, h, hu]

end Sys2Proof.Machine
end

