-- ==== Sys2Proof/Tests/Slice0.lean ====
section
/-! SUPPORT. The model's own tests. Expected values are the spec's: the encodings of spec/30_encoding.md R84 and R91, the
vectors of spec/95_test_vectors.md (each test names its row), and the examples of the instruction rules. Then one witness for
each statement of Certificates/Slice0/Obligations.lean that has hypotheses. -/

namespace Sys2Proof.Tests

open Sys2Proof.Machine

/-! ## Helpers -/

/-- Registers preset on a state. -/
def regs (l : List (Nat × Byte)) (s : State) : State := l.foldl (fun u r => u.setReg r.1 r.2) s

/-- Bytes preset from an address on. -/
def bytes (a : Byte) (l : List Byte) (s : State) : State := storeBytes a l s

/-- The state a step leaves, whatever its outcome. -/
def after (s : State) : State := (resultState (step s)).getD State.reset

/-- The reset state with other parameters. -/
def ls8Params : Params := { defaultParams with unaryAluEncoding := .ls8OneOperand }
def legacyParams : Params := { defaultParams with advanceMode := .legacy }
def stubParams : Params := { defaultParams with intMode := .stubNop }

/-! ## WellFormed smoke: each check refuses an ill-formed term -/

theorem test_wellFormed_refuses_one_register :
    Instr.wellFormed (.push 8) = false ∧ Instr.wellFormed (.pop 8) = false ∧ Instr.wellFormed (.prn 8) = false ∧
    Instr.wellFormed (.pra 8) = false ∧ Instr.wellFormed (.call 8) = false ∧ Instr.wellFormed (.int 8) = false ∧
    Instr.wellFormed (.jmp 8) = false ∧ Instr.wellFormed (.jeq 8) = false ∧ Instr.wellFormed (.jne 8) = false ∧
    Instr.wellFormed (.jgt 8) = false ∧ Instr.wellFormed (.jlt 8) = false ∧ Instr.wellFormed (.jle 8) = false ∧
    Instr.wellFormed (.jge 8) = false ∧ Instr.wellFormed (.inc 8) = false ∧ Instr.wellFormed (.dec 8) = false ∧
    Instr.wellFormed (.not 8) = false := by decide

theorem test_wellFormed_refuses_ldi_register : Instr.wellFormed (.ldi 8 0x00#8) = false := by decide

theorem test_wellFormed_refuses_first_register :
    Instr.wellFormed (.ld 8 7) = false ∧ Instr.wellFormed (.st 8 7) = false ∧ Instr.wellFormed (.add 8 7) = false ∧
    Instr.wellFormed (.sub 8 7) = false ∧ Instr.wellFormed (.mul 8 7) = false ∧ Instr.wellFormed (.div 8 7) = false ∧
    Instr.wellFormed (.mod 8 7) = false ∧ Instr.wellFormed (.cmp 8 7) = false ∧ Instr.wellFormed (.and 8 7) = false ∧
    Instr.wellFormed (.or 8 7) = false ∧ Instr.wellFormed (.xor 8 7) = false ∧ Instr.wellFormed (.shl 8 7) = false ∧
    Instr.wellFormed (.shr 8 7) = false := by decide

theorem test_wellFormed_refuses_second_register :
    Instr.wellFormed (.ld 7 8) = false ∧ Instr.wellFormed (.st 7 8) = false ∧ Instr.wellFormed (.add 7 8) = false ∧
    Instr.wellFormed (.sub 7 8) = false ∧ Instr.wellFormed (.mul 7 8) = false ∧ Instr.wellFormed (.div 7 8) = false ∧
    Instr.wellFormed (.mod 7 8) = false ∧ Instr.wellFormed (.cmp 7 8) = false ∧ Instr.wellFormed (.and 7 8) = false ∧
    Instr.wellFormed (.or 7 8) = false ∧ Instr.wellFormed (.xor 7 8) = false ∧ Instr.wellFormed (.shl 7 8) = false ∧
    Instr.wellFormed (.shr 7 8) = false := by decide

theorem test_wellFormed_accepts_highest_register :
    Instr.wellFormed .iret = true ∧ Instr.wellFormed (.push 7) = true ∧ Instr.wellFormed (.ldi 7 0xFF#8) = true ∧
    Instr.wellFormed (.shr 7 7) = true := by decide

/-! ## Decoding: the words of R84, bit by bit, every constructor -/

theorem test_decode_control :
    decode defaultParams [0b00000000#8] = .ok (.nop, []) ∧
    decode defaultParams [0b00000001#8] = .ok (.hlt, []) :=
  ⟨rfl, rfl⟩

theorem test_decode_stack :
    decode defaultParams [0b01000101#8, 0b00000101#8] = .ok (.push 5, []) ∧
    decode defaultParams [0b01000110#8, 0b00000101#8] = .ok (.pop 5, []) :=
  ⟨rfl, rfl⟩

theorem test_decode_output :
    decode defaultParams [0b01000111#8, 0b00000101#8] = .ok (.prn 5, []) ∧
    decode defaultParams [0b01001000#8, 0b00000101#8] = .ok (.pra 5, []) :=
  ⟨rfl, rfl⟩

theorem test_decode_load_store :
    decode defaultParams [0b10000010#8, 0b00000011#8, 0b11000110#8] = .ok (.ldi 3 0xC6#8, []) ∧
    decode defaultParams [0b10000011#8, 0b00000011#8, 0b00000110#8] = .ok (.ld 3 6, []) ∧
    decode defaultParams [0b10000100#8, 0b00000011#8, 0b00000110#8] = .ok (.st 3 6, []) :=
  ⟨rfl, rfl, rfl⟩

theorem test_decode_call_interrupt :
    decode defaultParams [0b01010000#8, 0b00000101#8] = .ok (.call 5, []) ∧
    decode defaultParams [0b00010001#8] = .ok (.ret, []) ∧
    decode defaultParams [0b01010010#8, 0b00000101#8] = .ok (.int 5, []) ∧
    decode defaultParams [0b00010011#8] = .ok (.iret, []) :=
  ⟨rfl, rfl, rfl, rfl⟩

theorem test_decode_jumps :
    decode defaultParams [0b01010100#8, 0b00000101#8] = .ok (.jmp 5, []) ∧
    decode defaultParams [0b01010101#8, 0b00000101#8] = .ok (.jeq 5, []) ∧
    decode defaultParams [0b01010110#8, 0b00000101#8] = .ok (.jne 5, []) ∧
    decode defaultParams [0b01010111#8, 0b00000101#8] = .ok (.jgt 5, []) ∧
    decode defaultParams [0b01011000#8, 0b00000101#8] = .ok (.jlt 5, []) ∧
    decode defaultParams [0b01011001#8, 0b00000101#8] = .ok (.jle 5, []) ∧
    decode defaultParams [0b01011010#8, 0b00000101#8] = .ok (.jge 5, []) :=
  ⟨rfl, rfl, rfl, rfl, rfl, rfl, rfl⟩

theorem test_decode_alu_arithmetic :
    decode defaultParams [0b10100000#8, 0b00000011#8, 0b00000110#8] = .ok (.add 3 6, []) ∧
    decode defaultParams [0b10100001#8, 0b00000011#8, 0b00000110#8] = .ok (.sub 3 6, []) ∧
    decode defaultParams [0b10100010#8, 0b00000011#8, 0b00000110#8] = .ok (.mul 3 6, []) ∧
    decode defaultParams [0b10100011#8, 0b00000011#8, 0b00000110#8] = .ok (.div 3 6, []) ∧
    decode defaultParams [0b10100100#8, 0b00000011#8, 0b00000110#8] = .ok (.mod 3 6, []) ∧
    decode defaultParams [0b10100101#8, 0b00000011#8, 0b00000110#8] = .ok (.inc 3, []) ∧
    decode defaultParams [0b10100110#8, 0b00000011#8, 0b00000110#8] = .ok (.dec 3, []) ∧
    decode defaultParams [0b10100111#8, 0b00000011#8, 0b00000110#8] = .ok (.cmp 3 6, []) :=
  ⟨rfl, rfl, rfl, rfl, rfl, rfl, rfl, rfl⟩

theorem test_decode_alu_bitwise :
    decode defaultParams [0b10101000#8, 0b00000011#8, 0b00000110#8] = .ok (.and 3 6, []) ∧
    decode defaultParams [0b10101001#8, 0b00000011#8, 0b00000110#8] = .ok (.not 3, []) ∧
    decode defaultParams [0b10101010#8, 0b00000011#8, 0b00000110#8] = .ok (.or 3 6, []) ∧
    decode defaultParams [0b10101011#8, 0b00000011#8, 0b00000110#8] = .ok (.xor 3 6, []) ∧
    decode defaultParams [0b10101100#8, 0b00000011#8, 0b00000110#8] = .ok (.shl 3 6, []) ∧
    decode defaultParams [0b10101101#8, 0b00000011#8, 0b00000110#8] = .ok (.shr 3 6, []) :=
  ⟨rfl, rfl, rfl, rfl, rfl, rfl⟩

theorem test_decode_ls8_unary :
    decode ls8Params [0b01100101#8, 0b00000011#8] = .ok (.inc 3, []) ∧
    decode ls8Params [0b01100110#8, 0b00000011#8] = .ok (.dec 3, []) ∧
    decode ls8Params [0b01101001#8, 0b00000011#8] = .ok (.not 3, []) ∧
    decode ls8Params [0xA5#8, 0x00#8, 0x00#8] = .error (.undefinedOpcode 0xA5#8) :=
  ⟨rfl, rfl, rfl, rfl⟩

/-- CYC-11, and R83: the upper five bits of a register operand are ignored. -/
theorem test_decode_ignores_upper_operand_bits :
    decode defaultParams [0x82#8, 0x0B#8, 0x55#8] = .ok (.ldi 3 0x55#8, []) ∧
    decode defaultParams [0x47#8, 0xFB#8] = .ok (.prn 3, []) :=
  ⟨rfl, rfl⟩

theorem test_decode_rejects_by_name :
    decode defaultParams [0xC0#8] = .error (.undefinedOpcode 0xC0#8) ∧
    decode defaultParams [0x02#8, 0x00#8] = .error (.undefinedOpcode 0x02#8) ∧
    decode defaultParams [0x82#8, 0x00#8] = .error .truncated ∧ decode defaultParams [] = .error .truncated :=
  ⟨rfl, rfl, rfl, rfl⟩

/-- The bytes of ADD R0,R1 (R91) numbered as the opcode table numbers them, and run as the first instruction. -/
theorem test_table_word : decodeTableWord 24 0x0100A0 = some (.add 0 1) ∧ decodeTableWord 8 0x01 = some .hlt ∧
    decodeTableWord 8 0xFF = none := by decide

theorem test_withFetchWord_runs_hlt :
    (after (State.reset.withFetchWord 8 0x01)).status = .halted ∧ (after (State.reset.withFetchWord 8 0x01)).pc = 0x01#8 := by
  decide

/-! ## One step of each instruction, by the vectors of spec/95_test_vectors.md -/

/-- NOP-1. -/
theorem test_nop_fetch :
    let t := after (bytes 0x05#8 [0x00#8, 0xA0#8, 0x07#8] { State.reset with pc := 0x05#8 })
    (t.pc, t.ir, t.opA, t.opB, t.mar, t.mdr) = (0x06#8, 0x00#8, 0xA0#8, 0x07#8, 0x07#8, 0x07#8) := by decide

/-- CYC-4. -/
theorem test_nop_legacy_stays :
    let t := after (bytes 0x05#8 [0x00#8] { State.reset with pc := 0x05#8, params := legacyParams })
    t.pc = 0x05#8 := by decide

/-- HLT-1. -/
theorem test_hlt :
    let t := after (bytes 0x0B#8 [0x01#8] { State.reset with pc := 0x0B#8 })
    (t.halted, t.status, t.pc) = (true, .halted, 0x0C#8) := by decide

/-- CYC-5. -/
theorem test_hlt_legacy :
    let t := after (bytes 0x05#8 [0x01#8] { State.reset with pc := 0x05#8, params := legacyParams })
    (t.status, t.pc) = (.halted, 0x05#8) := by decide

/-- STK-2. -/
theorem test_push_sp_pushes_old_sp :
    let t := after (bytes 0x00#8 [0x45#8, 0x07#8] State.reset)
    (t.sp, t.byteAt 0xF3#8) = (0xF3#8, 0xF4#8) := by decide

/-- STK-3. -/
theorem test_push_wraps :
    let t := after (regs [(7, 0x00#8), (1, 0x99#8)] (bytes 0x10#8 [0x45#8, 0x01#8] { State.reset with pc := 0x10#8 }))
    (t.sp, t.byteAt 0xFF#8, t.mar, t.mdr) = (0xFF#8, 0x99#8, 0xFF#8, 0x99#8) := by decide

/-- STK-4. -/
theorem test_pop_sp :
    let t := after (regs [(7, 0xF3#8)] (bytes 0x00#8 [0x46#8, 0x07#8] (bytes 0xF3#8 [0x40#8] State.reset)))
    (t.sp, t.byteAt 0xF3#8) = (0x40#8, 0x00#8) := by decide

/-- STK-6. -/
theorem test_pop_wraps :
    let t := after (regs [(7, 0xFF#8)] (bytes 0x10#8 [0x46#8, 0x02#8] (bytes 0xFF#8 [0x12#8] { State.reset with pc :=
        0x10#8 })))
    (t.reg 2, t.byteAt 0xFF#8, t.sp) = (0x12#8, 0x00#8, 0x00#8) := by decide

/-- OUT-1. -/
theorem test_prn :
    let t := after (regs [(0, 0xFF#8)] (bytes 0x00#8 [0x47#8, 0x00#8] State.reset))
    (t.out, t.pc) = ([.dec 0xFF#8], 0x02#8) := by decide

/-- OUT-1, OUT-2, OUT-3: rendering. -/
theorem test_render :
    renderEvent defaultParams (.dec 0xFF#8) = ['2', '5', '5', '\n'] ∧ renderEvent defaultParams (.dec 0x00#8) = ['0', '\n'] ∧
    renderEvent defaultParams (.dec 0x11#8) = ['1', '7', '\n'] ∧ renderEvent defaultParams (.chr 0x41#8) = ['A'] := by decide

/-- OUT-3. -/
theorem test_pra :
    let t := after (regs [(2, 0x41#8)] (bytes 0x00#8 [0x48#8, 0x02#8] State.reset))
    (t.out, t.pc) = ([.chr 0x41#8], 0x02#8) := by decide

/-- LS-1. -/
theorem test_ldi_sp :
    let t := after (bytes 0x00#8 [0x82#8, 0x07#8, 0x80#8] State.reset)
    (t.sp, t.pc) = (0x80#8, 0x03#8) := by decide

/-- CYC-1. -/
theorem test_ldi_straddles :
    let t := after (bytes 0xFE#8 [0x82#8, 0x03#8, 0x07#8] { State.reset with pc := 0xFE#8 })
    (t.reg 3, t.pc, t.ir, t.opA, t.opB, t.mar, t.mdr) = (0x07#8, 0x01#8, 0x82#8, 0x03#8, 0x07#8, 0x00#8, 0x07#8) := by decide

/-- LS-3. -/
theorem test_ld_same_register :
    let t := after (regs [(2, 0x90#8)] (bytes 0x00#8 [0x83#8, 0x02#8, 0x02#8] (bytes 0x90#8 [0x05#8] State.reset)))
    (t.reg 2, t.mar, t.mdr) = (0x05#8, 0x90#8, 0x05#8) := by decide

/-- LS-4. -/
theorem test_ld_reads_code :
    let t := after (bytes 0x00#8 [0x83#8, 0x01#8, 0x00#8] State.reset)
    t.reg 1 = 0x83#8 := by decide

/-- LS-5. -/
theorem test_st :
    let t := after (regs [(0, 0x80#8), (1, 0x2A#8)] (bytes 0x00#8 [0x84#8, 0x00#8, 0x01#8] State.reset))
    (t.byteAt 0x80#8, t.mar, t.mdr, t.pc) = (0x2A#8, 0x80#8, 0x2A#8, 0x03#8) := by decide

/-- LS-7. -/
theorem test_st_own_bytes :
    let t := after (regs [(0, 0x12#8), (1, 0x05#8)] (bytes 0x10#8 [0x84#8, 0x00#8, 0x01#8] { State.reset with pc :=
        0x10#8 }))
    (t.byteAt 0x12#8, t.pc) = (0x05#8, 0x13#8) := by decide

/-- CALL-1. -/
theorem test_call :
    let t := after (regs [(1, 0x0B#8)] (bytes 0x06#8 [0x50#8, 0x01#8] { State.reset with pc := 0x06#8 }))
    (t.sp, t.byteAt 0xF3#8, t.pc) = (0xF3#8, 0x08#8, 0x0B#8) := by decide

/-- CALL-4. -/
theorem test_call_sp :
    let t := after (bytes 0x10#8 [0x50#8, 0x07#8] { State.reset with pc := 0x10#8 })
    (t.sp, t.byteAt 0xF3#8, t.pc) = (0xF3#8, 0x12#8, 0xF3#8) := by decide

/-- RET-1. -/
theorem test_ret :
    let t := after (regs [(7, 0xF3#8)] (bytes 0x00#8 [0x11#8] (bytes 0xF3#8 [0x08#8] State.reset)))
    (t.pc, t.sp, t.byteAt 0xF3#8) = (0x08#8, 0xF4#8, 0x00#8) := by decide

/-- INT-1. -/
theorem test_int_refused :
    let t := after (bytes 0x20#8 [0x52#8, 0x03#8] { State.reset with pc := 0x20#8 })
    (t.status, t.pc, t.reg 6) = (.refused .int, 0x20#8, 0x00#8) := by decide

/-- INT-2. -/
theorem test_int_stub :
    let t := after (bytes 0x20#8 [0x52#8, 0x03#8] { State.reset with pc := 0x20#8, params := stubParams })
    (t.status, t.pc, t.reg 6) = (.running, 0x22#8, 0x00#8) := by decide

/-- IRET-2: the seven registers, R0 first, then FL, PC (the popped byte is 0x00), SP (wrapped) and ie. -/
theorem test_iret :
    let t := after (regs [(7, 0xF7#8)] (bytes 0x10#8 [0x13#8] (bytes 0xF7#8
      [0x16#8, 0x15#8, 0x14#8, 0x13#8, 0x12#8, 0x11#8, 0x10#8, 0xFF#8, 0x00#8]
      { State.reset with pc := 0x10#8, ie := false })))
    ([0, 1, 2, 3, 4, 5, 6].map t.reg, t.fl, t.pc, t.sp, t.ie) =
      ([0x10#8, 0x11#8, 0x12#8, 0x13#8, 0x14#8, 0x15#8, 0x16#8], 0xFF#8, 0x00#8, 0x00#8, true) := by decide

/-- IRET-2: the nine cells. -/
theorem test_iret_clears_frame :
    let t := after (regs [(7, 0xF7#8)] (bytes 0x10#8 [0x13#8] (bytes 0xF7#8 [0x16#8, 0x15#8, 0x14#8, 0x13#8, 0x12#8,
        0x11#8, 0x10#8, 0xFF#8, 0x00#8] { State.reset with pc := 0x10#8 })))
    (t.mem, t.mar, t.mdr) = ([(0x10, 0x13#8)], 0xFF#8, 0x00#8) := by decide

/-- JMP-2. -/
theorem test_jmp_to_itself :
    let t := after (regs [(0, 0x10#8)] (bytes 0x10#8 [0x54#8, 0x00#8] { State.reset with pc := 0x10#8 }))
    t.pc = 0x10#8 := by decide

/-- V-JMP, the column of JEQ: taken to 0x40 or not taken to 0x02. -/
theorem test_jeq :
    [0x00#8, 0x01#8, 0x02#8, 0x04#8, 0x03#8, 0x05#8, 0x06#8, 0x07#8, 0xF8#8].map
        (fun fl : Byte => (after (regs [(3, 0x40#8)] (bytes 0x00#8 [0b01010101#8, 0x03#8] (State.reset.setFl fl)))).pc) =
      [0x02#8, 0x40#8, 0x02#8, 0x02#8, 0x40#8, 0x40#8, 0x02#8, 0x40#8, 0x02#8] := by decide

/-- V-JMP, the column of JNE: taken to 0x40 or not taken to 0x02. -/
theorem test_jne :
    [0x00#8, 0x01#8, 0x02#8, 0x04#8, 0x03#8, 0x05#8, 0x06#8, 0x07#8, 0xF8#8].map
        (fun fl : Byte => (after (regs [(3, 0x40#8)] (bytes 0x00#8 [0b01010110#8, 0x03#8] (State.reset.setFl fl)))).pc) =
      [0x40#8, 0x02#8, 0x40#8, 0x40#8, 0x02#8, 0x02#8, 0x40#8, 0x02#8, 0x40#8] := by decide

/-- V-JMP, the column of JGT: taken to 0x40 or not taken to 0x02. -/
theorem test_jgt :
    [0x00#8, 0x01#8, 0x02#8, 0x04#8, 0x03#8, 0x05#8, 0x06#8, 0x07#8, 0xF8#8].map
        (fun fl : Byte => (after (regs [(3, 0x40#8)] (bytes 0x00#8 [0b01010111#8, 0x03#8] (State.reset.setFl fl)))).pc) =
      [0x02#8, 0x02#8, 0x40#8, 0x02#8, 0x40#8, 0x02#8, 0x40#8, 0x40#8, 0x02#8] := by decide

/-- V-JMP, the column of JLT: taken to 0x40 or not taken to 0x02. -/
theorem test_jlt :
    [0x00#8, 0x01#8, 0x02#8, 0x04#8, 0x03#8, 0x05#8, 0x06#8, 0x07#8, 0xF8#8].map
        (fun fl : Byte => (after (regs [(3, 0x40#8)] (bytes 0x00#8 [0b01011000#8, 0x03#8] (State.reset.setFl fl)))).pc) =
      [0x02#8, 0x02#8, 0x02#8, 0x40#8, 0x02#8, 0x40#8, 0x40#8, 0x40#8, 0x02#8] := by decide

/-- V-JMP, the column of JLE: taken to 0x40 or not taken to 0x02. -/
theorem test_jle :
    [0x00#8, 0x01#8, 0x02#8, 0x04#8, 0x03#8, 0x05#8, 0x06#8, 0x07#8, 0xF8#8].map
        (fun fl : Byte => (after (regs [(3, 0x40#8)] (bytes 0x00#8 [0b01011001#8, 0x03#8] (State.reset.setFl fl)))).pc) =
      [0x02#8, 0x40#8, 0x02#8, 0x40#8, 0x40#8, 0x40#8, 0x40#8, 0x40#8, 0x02#8] := by decide

/-- V-JMP, the column of JGE: taken to 0x40 or not taken to 0x02. -/
theorem test_jge :
    [0x00#8, 0x01#8, 0x02#8, 0x04#8, 0x03#8, 0x05#8, 0x06#8, 0x07#8, 0xF8#8].map
        (fun fl : Byte => (after (regs [(3, 0x40#8)] (bytes 0x00#8 [0b01011010#8, 0x03#8] (State.reset.setFl fl)))).pc) =
      [0x02#8, 0x40#8, 0x40#8, 0x02#8, 0x40#8, 0x40#8, 0x40#8, 0x40#8, 0x02#8] := by decide

/-- JMP-3. -/
theorem test_jge_not_taken_wraps :
    let t := after (regs [(3, 0x40#8)] (bytes 0xFE#8 [0x5A#8, 0x03#8] { State.reset with pc := 0xFE#8, fl := 0x04#8 }))
    t.pc = 0x00#8 := by decide

/-- ALU-2. -/
theorem test_inc :
    let t := after (regs [(2, 0xFF#8)] (bytes 0x00#8 [0xA5#8, 0x02#8, 0xFF#8] State.reset))
    (t.reg 2, t.fl, t.pc) = (0x00#8, 0x00#8, 0x03#8) := by decide

/-- ALU-3. -/
theorem test_dec :
    let t := after (regs [(2, 0x00#8)] (bytes 0x00#8 [0xA6#8, 0x02#8, 0xFF#8] State.reset))
    (t.reg 2, t.fl, t.pc) = (0xFF#8, 0x00#8, 0x03#8) := by decide

/-- ALU-6. -/
theorem test_not :
    let t := after (regs [(2, 0xA5#8)] (bytes 0x00#8 [0xA9#8, 0x02#8, 0xFF#8] State.reset))
    (t.reg 2, t.fl, t.pc) = (0x5A#8, 0x00#8, 0x03#8) := by decide

/-- ALU-8. -/
theorem test_add :
    let t := after (regs [(2, 0xFF#8), (5, 0x01#8)] (bytes 0x00#8 [0xA0#8, 0x02#8, 0x05#8] State.reset))
    (t.reg 2, t.fl, t.pc) = (0x00#8, 0x00#8, 0x03#8) := by decide

/-- ALU-41. -/
theorem test_add_same :
    let t := after (regs [(2, 0x90#8)] (bytes 0x00#8 [0xA0#8, 0x02#8, 0x02#8] State.reset))
    (t.reg 2, t.fl, t.pc) = (0x20#8, 0x00#8, 0x03#8) := by decide

/-- ALU-12. -/
theorem test_sub :
    let t := after (regs [(2, 0x03#8), (5, 0x05#8)] (bytes 0x00#8 [0xA1#8, 0x02#8, 0x05#8] State.reset))
    (t.reg 2, t.fl, t.pc) = (0xFE#8, 0x00#8, 0x03#8) := by decide

/-- ALU-14. -/
theorem test_mul :
    let t := after (regs [(2, 0xFF#8), (5, 0xFF#8)] (bytes 0x00#8 [0xA2#8, 0x02#8, 0x05#8] State.reset))
    (t.reg 2, t.fl, t.pc) = (0x01#8, 0x00#8, 0x03#8) := by decide

/-- ALU-16. -/
theorem test_mul_low :
    let t := after (regs [(2, 0x0F#8), (5, 0x11#8)] (bytes 0x00#8 [0xA2#8, 0x02#8, 0x05#8] State.reset))
    (t.reg 2, t.fl, t.pc) = (0xFF#8, 0x00#8, 0x03#8) := by decide

/-- ALU-17. -/
theorem test_div :
    let t := after (regs [(2, 0xFF#8), (5, 0x02#8)] (bytes 0x00#8 [0xA3#8, 0x02#8, 0x05#8] State.reset))
    (t.reg 2, t.fl, t.pc) = (0x7F#8, 0x00#8, 0x03#8) := by decide

/-- ALU-24. -/
theorem test_mod :
    let t := after (regs [(2, 0x03#8), (5, 0x05#8)] (bytes 0x00#8 [0xA4#8, 0x02#8, 0x05#8] State.reset))
    (t.reg 2, t.fl, t.pc) = (0x03#8, 0x00#8, 0x03#8) := by decide

/-- ALU-28. -/
theorem test_and :
    let t := after (regs [(2, 0xF0#8), (5, 0x3C#8)] (bytes 0x00#8 [0xA8#8, 0x02#8, 0x05#8] State.reset))
    (t.reg 2, t.fl, t.pc) = (0x30#8, 0x00#8, 0x03#8) := by decide

/-- ALU-29. -/
theorem test_or :
    let t := after (regs [(2, 0xF0#8), (5, 0x3C#8)] (bytes 0x00#8 [0xAA#8, 0x02#8, 0x05#8] State.reset))
    (t.reg 2, t.fl, t.pc) = (0xFC#8, 0x00#8, 0x03#8) := by decide

/-- ALU-30. -/
theorem test_xor :
    let t := after (regs [(2, 0xF0#8), (5, 0x3C#8)] (bytes 0x00#8 [0xAB#8, 0x02#8, 0x05#8] State.reset))
    (t.reg 2, t.fl, t.pc) = (0xCC#8, 0x00#8, 0x03#8) := by decide

/-- ALU-32. -/
theorem test_shl :
    let t := after (regs [(2, 0x81#8), (5, 0x01#8)] (bytes 0x00#8 [0xAC#8, 0x02#8, 0x05#8] State.reset))
    (t.reg 2, t.fl, t.pc) = (0x02#8, 0x00#8, 0x03#8) := by decide

/-- ALU-34. -/
theorem test_shl_full_amount :
    let t := after (regs [(2, 0x01#8), (5, 0x08#8)] (bytes 0x00#8 [0xAC#8, 0x02#8, 0x05#8] State.reset))
    (t.reg 2, t.fl, t.pc) = (0x00#8, 0x00#8, 0x03#8) := by decide

/-- ALU-38. -/
theorem test_shr :
    let t := after (regs [(2, 0x80#8), (5, 0x01#8)] (bytes 0x00#8 [0xAD#8, 0x02#8, 0x05#8] State.reset))
    (t.reg 2, t.fl, t.pc) = (0x40#8, 0x00#8, 0x03#8) := by decide

/-- ALU-39. -/
theorem test_shr_full_amount :
    let t := after (regs [(2, 0xFF#8), (5, 0x08#8)] (bytes 0x00#8 [0xAD#8, 0x02#8, 0x05#8] State.reset))
    (t.reg 2, t.fl, t.pc) = (0x00#8, 0x00#8, 0x03#8) := by decide

/-- CYC-7. -/
theorem test_inc_ls8 :
    let t := after (regs [(0, 0x41#8)] (bytes 0x00#8 [0x65#8, 0x00#8] { State.reset with params := ls8Params }))
    (t.reg 0, t.pc) = (0x42#8, 0x02#8) := by decide

/-- ALU-22, P5. -/
theorem test_div_by_zero :
    let t := after (regs [(0, 0x09#8)] (bytes 0x06#8 [0xA3#8, 0x00#8, 0x01#8] { State.reset with pc := 0x06#8 }))
    (t.status, t.reg 0, t.pc, t.ir, t.opA, t.opB, t.mar, t.mdr) = (.faulted .divisionByZero, 0x09#8, 0x06#8, 0xA3#8, 0x00#8, 0x01#8, 0x08#8, 0x01#8) := by decide

/-- ALU-27. -/
theorem test_mod_by_zero :
    let t := after (regs [(0, 0x09#8)] (bytes 0x06#8 [0xA4#8, 0x00#8, 0x01#8] { State.reset with pc := 0x06#8 }))
    (t.status, t.reg 0, t.pc) = (.faulted .divisionByZero, 0x09#8, 0x06#8) := by decide

/-- CMP-2. -/
theorem test_cmp_less_unsigned :
    let t := after (regs [(1, 0x01#8), (2, 0xFF#8)] (bytes 0x00#8 [0xA7#8, 0x01#8, 0x02#8] State.reset))
    (t.fl, t.reg 1, t.reg 2, t.pc) = (0x04#8, 0x01#8, 0xFF#8, 0x03#8) := by decide

/-- CMP-4. -/
theorem test_cmp_keeps_upper_bits :
    let t := after (regs [(1, 0xFF#8), (2, 0xFF#8)] (bytes 0x00#8 [0xA7#8, 0x01#8, 0x02#8] { State.reset with fl :=
        0xFF#8 }))
    t.fl = 0xF9#8 := by decide

/-- CYC-2. -/
theorem test_undefined_opcode :
    let t := after (bytes 0x20#8 [0xC0#8] { State.reset with pc := 0x20#8 })
    (t.status, t.pc, t.ir) = (.faulted .undefinedOpcode, 0x20#8, 0xC0#8) := by decide

/-- CYC-9: a halted core does not fetch. -/
theorem test_halted_core_does_not_step :
    let s : State := { State.reset with pc := 0x0C#8, halted := true, status := .halted, mar := 0x0D#8 }
    step s = .next s := rfl

/-- Scenario A (S1) as the source has it: the load, the run, the rendered line 17. -/
theorem test_scenario_a :
    ((resultState (load [0x82#8, 0x00#8, 0x08#8, 0x82#8, 0x01#8, 0x09#8, 0xA0#8, 0x00#8, 0x01#8, 0x47#8, 0x00#8, 0x01#8]
        State.reset)).bind (run 5)).map (fun t => (t.status, t.pc, renderOut t)) =
      some (.halted, 0x0C#8, ['1', '7', '\n']) := by decide

/-! ## Witnesses for the hypotheses of the obligations -/

/-- A running core whose next instruction is ADD R0,R1. -/
def adding : State := bytes 0x00#8 [0xA0#8, 0x00#8, 0x01#8] State.reset
/-- The same with HLT, INT R3, DIV R0,R1 (R1 = 0), and an undefined byte. -/
def halting : State := bytes 0x00#8 [0x01#8] State.reset
def interrupting : State := bytes 0x00#8 [0x52#8, 0x03#8] State.reset
def dividing : State := bytes 0x00#8 [0xA3#8, 0x00#8, 0x01#8] State.reset
def undefining : State := bytes 0x00#8 [0xFF#8] State.reset

theorem test_witness_StepKeepsInvariant :
    StateInv adding ∧ resultState (step adding) = some (after adding) ∧ StateInv undefining ∧
    resultState (step undefining) = some (after undefining) ∧ (after undefining).status = .faulted .undefinedOpcode := by
  refine ⟨⟨by decide, by decide⟩, by decide, ⟨by decide, by decide⟩, by decide, by decide⟩

theorem test_witness_ReachableStatesKeepInvariant :
    Reachable defaultParams (after (bytes 0x00#8 [0x01#8] { State.reset with loadOpen := false })) :=
  .step (s := (storeBytes 0x00#8 [0x01#8] State.reset).setLoadOpen false) (.load [0x01#8] .reset rfl) rfl

theorem test_witness_DecodeOfEncodeIsIdentity :
    defaultParams.wf = true ∧ ls8Params.wf = true ∧ Instr.wellFormed (.ldi 7 0xFF#8) = true ∧
    Instr.wellFormed (.not 7) = true ∧ encode defaultParams (.ldi 7 0xFF#8) = [0x82#8, 0x07#8, 0xFF#8] := by decide

theorem test_witness_DecodedInstructionReencodes :
    defaultParams.wf = true ∧ decode defaultParams (0x82#8 :: [0xFB#8, 0x55#8, 0x01#8]) = .ok (.ldi 3 0x55#8, [0x01#8]) :=
  ⟨by decide, rfl⟩

/-- DefaultMap and both unary encodings: the hypotheses of the statements over the default map. -/
theorem test_witness_DefaultMap :
    defaultParams.opcodeMap = defaultOpcodeMap ∧ defaultParams.unaryAluEncoding = .twoOperand ∧
    ls8Params.opcodeMap = defaultOpcodeMap ∧ ls8Params.unaryAluEncoding = .ls8OneOperand := by decide

/-- The boundaries of the illegal ranges (R87). -/
theorem test_witness_IllegalOpcodeBytes :
    [0x02#8, 0x10#8, 0x12#8, 0x14#8, 0x44#8, 0x49#8, 0x4F#8, 0x51#8, 0x53#8, 0x5B#8, 0x81#8, 0x85#8, 0x9F#8, 0xAE#8,
      0xFF#8].all (fun b => (lookupOp defaultParams.opcodes b).isNone) = true ∧
    [0x01#8, 0x11#8, 0x13#8, 0x45#8, 0x48#8, 0x50#8, 0x52#8, 0x54#8, 0x5A#8, 0x82#8, 0x84#8, 0xA0#8, 0xAD#8].all
      (fun b => (lookupOp defaultParams.opcodes b).isSome) = true := by decide

/-- Each pattern of bits 7:6, at the ends of its range. -/
theorem test_witness_LengthFromTopTwoBits :
    [0x00#8, 0x3F#8, 0x40#8, 0x7F#8, 0x80#8, 0xBF#8, 0xC0#8, 0xFF#8].map
        (fun op : Byte => (op.getLsbD 7, op.getLsbD 6)) =
      [(false, false), (false, false), (false, true), (false, true), (true, false), (true, false), (true, true),
        (true, true)] := by decide

theorem test_witness_LegacyAdvanceAmounts :
    instrLength 0x3F#8 = 1 ∧ instrLength 0x7F#8 = 2 ∧ instrLength 0xBF#8 = 3 ∧
    (∃ t, exec (.call 1) (State.resetWith legacyParams) = .next t) := ⟨by decide, by decide, by decide, ⟨_, rfl⟩⟩

theorem test_witness_BalancedStackIsLifo : (List.replicate 256 0x5A#8).length ≤ 256 := by rw [List.length_replicate]

/-- The three clauses: an instruction that completes, one that faults, one that is refused. -/
theorem test_witness_StepRunsTheDecodedInstruction :
    (adding.status = .running ∧ decodeFetched adding.params (adding.byteAt adding.pc) (adding.byteAt (adding.pc + 1#8))
      (adding.byteAt (adding.pc + 2#8)) = .ok (.add 0 1) ∧ exec (.add 0 1) (fetched adding) = .next (after adding)) ∧
    (dividing.status = .running ∧ decodeFetched dividing.params (dividing.byteAt dividing.pc)
      (dividing.byteAt (dividing.pc + 1#8)) (dividing.byteAt (dividing.pc + 2#8)) = .ok (.div 0 1) ∧
      exec (.div 0 1) (fetched dividing) = .fault (.divisionByZero (after dividing))) ∧
    (interrupting.status = .running ∧ decodeFetched interrupting.params (interrupting.byteAt interrupting.pc)
      (interrupting.byteAt (interrupting.pc + 1#8)) (interrupting.byteAt (interrupting.pc + 2#8)) = .ok (.int 3) ∧
      exec (.int 3) (fetched interrupting) = .refused (.intWithoutContract (after interrupting))) :=
  ⟨⟨rfl, rfl, rfl⟩, ⟨rfl, rfl, rfl⟩, ⟨rfl, rfl, rfl⟩⟩

theorem test_witness_UndefinedOpcodeFaults :
    undefining.status = .running ∧ decodeFetched undefining.params (undefining.byteAt undefining.pc)
      (undefining.byteAt (undefining.pc + 1#8)) (undefining.byteAt (undefining.pc + 2#8)) =
        .error (.undefinedOpcode 0xFF#8) := ⟨rfl, rfl⟩

theorem test_witness_StoppedCoreNeverMoves :
    (after halting).status ≠ .running ∧ (after dividing).status ≠ .running ∧ (after interrupting).status ≠ .running := by
  decide

/-- Each clause: Running after ADD, Halted after HLT, both faults, the refusal. -/
theorem test_witness_OutcomesOfAStep :
    adding.status = .running ∧ adding.halted = false ∧ step adding = .next (after adding) ∧
    step halting = .next (after halting) ∧
    step undefining = .fault (.undefinedOpcode 0xFF#8 (after undefining)) ∧
    step dividing = .fault (.divisionByZero (after dividing)) ∧
    step interrupting = .refused (.intWithoutContract (after interrupting)) := ⟨rfl, rfl, rfl, rfl, rfl, rfl, rfl⟩

theorem test_witness_FailedStepWritesNothing :
    resultState (step dividing) = some (after dividing) ∧ ∀ u, step dividing ≠ .next u :=
  ⟨rfl, fun _ => nofun⟩

/-- Before its one step a run of HLT has not ended, after it the run has; a run of one ADD has not. -/
theorem test_witness_RunEndsWhenStatusLeavesRunning :
    run 0 halting = none ∧ run 1 halting = some (after halting) ∧ run 1 adding = none ∧
    adding.status = .running ∧ (after adding).status = .running := by decide

/-- Each clause: JMP R0 to address 0, a legacy NOP, NOPs all around memory. -/
theorem test_witness_SelfLoopsNeverEnd :
    (let s := bytes 0x00#8 [0x54#8, 0x00#8] State.reset
     s.status = .running ∧ s.halted = false ∧
      decodeFetched s.params (s.byteAt s.pc) (s.byteAt (s.pc + 1#8)) (s.byteAt (s.pc + 2#8)) = .ok (.jmp 0) ∧
      s.reg 0 = s.pc) ∧
    (let s := State.resetWith legacyParams
     s.status = .running ∧ s.halted = false ∧
      decodeFetched s.params (s.byteAt s.pc) (s.byteAt (s.pc + 1#8)) (s.byteAt (s.pc + 2#8)) = .ok .nop ∧
      s.params.advanceMode = .legacy ∧ s.byteAt s.pc = 0x00#8) ∧
    (let s := State.reset
     s.status = .running ∧ s.halted = false ∧
      ∀ a : Byte, decodeFetched s.params (s.byteAt a) (s.byteAt (a + 1#8)) (s.byteAt (a + 2#8)) = .ok .nop) :=
  ⟨⟨rfl, rfl, rfl, rfl⟩, ⟨rfl, rfl, rfl, rfl, rfl⟩, ⟨rfl, rfl, fun a => by
    have h : ∀ b, State.reset.byteAt b = 0x00#8 := fun _ => rfl
    rw [h, h, h]; rfl⟩⟩

/-- Each clause, at the boundary of 256 bytes. -/
theorem test_witness_LoadStoresFromAddressZero :
    (List.replicate 256 0x5A#8).length ≤ 256 ∧ State.reset.loadOpen = true ∧
    256 < (List.replicate 257 0x5A#8).length ∧ (after adding).loadOpen = false ∧
    adding.status = .running ∧ resultState (step adding) = some (after adding) := by
  refine ⟨by rw [List.length_replicate], rfl, by rw [List.length_replicate]; decide, rfl, rfl, rfl⟩

/-- The premises on IR and the mode, for NOP and HLT. -/
theorem test_witness_NopAndHlt :
    (State.resetWith legacyParams).ir = 0x00#8 ∧ (State.resetWith legacyParams).params.advanceMode = .legacy ∧
    State.reset.params.advanceMode = .canonical ∧ (fetched halting).ir = 0x01#8 ∧ halting.status = .running ∧
    decodeFetched halting.params (halting.byteAt halting.pc) (halting.byteAt (halting.pc + 1#8))
      (halting.byteAt (halting.pc + 2#8)) = .ok .hlt := ⟨rfl, rfl, rfl, rfl, rfl, rfl⟩

/-- ST completes; CALL completes and the RET state is its own next state. -/
theorem test_witness_StoreIsSeenByNextFetch :
    exec (.st 0 1) State.reset = .next (memWrite State.reset 0x00#8 0x00#8).advance := rfl

theorem test_witness_RetReturnsAfterCall :
    ∃ t, exec (.call 1) State.reset = .next t ∧ t.sp = t.sp ∧ t.byteAt t.sp = t.byteAt t.sp := ⟨_, rfl, rfl, rfl⟩

theorem test_witness_IntFollowsIntMode :
    (State.resetWith stubParams).params.intMode = .stubNop ∧ State.reset.params.intMode = .refuse := by decide

/-- Each condition of the conditional jumps, met and not met. -/
theorem test_witness_ConditionalJumpsFollowFlags :
    [0x01#8, 0x02#8, 0x04#8, 0x00#8].map (fun fl : Byte => (fl.getLsbD 0, fl.getLsbD 1, fl.getLsbD 2)) =
      [(true, false, false), (false, true, false), (false, false, true), (false, false, false)] := by decide

/-- A divisor of 0, of 1 (the least other one), and a shift amount of 8 (the least that clears). -/
theorem test_witness_ArithmeticAndShifts :
    ((State.reset).reg 1).toNat = 0 ∧ ((State.reset.setReg 1 0x01#8).reg 1).toNat ≠ 0 ∧
    8 ≤ ((State.reset.setReg 1 0x08#8).reg 1).toNat := by decide

theorem test_witness_DivisionLaw :
    exec (.div 0 7) State.reset = .next State.reset.advance ∧ exec (.mod 0 7) State.reset = .next (State.reset.setReg 0 0x00#8).advance :=
  ⟨rfl, rfl⟩

/-- A step of CMP, of IRET and of another instruction: the premises of the whole-machine rules. -/
theorem test_witness_WholeMachineRules :
    (∃ t, exec (.cmp 0 7) State.reset = .next t ∧ t.fl ≠ State.reset.fl) ∧ (∃ t, exec .iret State.reset = .next t) ∧
    (∃ t, exec (.add 0 7) State.reset = .next t ∧ t.reg 0 ≠ State.reset.reg 0) ∧
    (∃ t, exec (.prn 0) State.reset = .next t ∧ t.out ≠ State.reset.out) ∧
    (∃ t, exec .hlt State.reset = .next t ∧ t.halted ≠ State.reset.halted) :=
  ⟨⟨_, rfl, by decide⟩, ⟨_, rfl⟩, ⟨_, rfl, by decide⟩, ⟨_, rfl, by decide⟩, ⟨_, rfl, by decide⟩⟩

/-- A second FL value that agrees on the bits a jump reads, for each jump. -/
theorem test_witness_OnlyConditionalJumpsReadFlags :
    (0xF8#8 : Byte).getLsbD 0 = State.reset.fl.getLsbD 0 ∧ (0xF8#8 : Byte).getLsbD 1 = State.reset.fl.getLsbD 1 ∧
    (0xF8#8 : Byte).getLsbD 2 = State.reset.fl.getLsbD 2 := by decide

/-- Two different states that agree on all a program can observe. -/
theorem test_witness_HiddenStateIsNeverObserved :
    let s : State := { State.reset with fl := 0xF8#8, ie := false, mar := 0x11#8, ir := 0x22#8 }
    s ≠ State.reset ∧ forgetHidden s = forgetHidden State.reset := by decide

/-- Instructions that may not write register 5 or 6. -/
theorem test_witness_InterruptAliases : ∃ t, exec (.add 0 5) State.reset = .next t ∧ t.im = State.reset.im :=
  ⟨_, rfl, rfl⟩

end Sys2Proof.Tests
end

/-! Proofs about the register operands of a decoded instruction (spec/10_state.md R21, spec/30_encoding.md R83). -/

namespace Sys2Proof

open Sys2Proof.Claims

/-- A register-operand byte counts by its low three bits. -/
theorem regIndex_and_07 (o : Byte) : regIndex (o &&& 0x07#8) = regIndex o := by
  have hlow : (o &&& 0x07#8).toNat = o.toNat % 2 ^ 3 := by
    rw [BitVec.toNat_and]; exact Nat.and_two_pow_sub_one_eq_mod o.toNat 3
  simp [regIndex, hlow]

/-- The register operands of what is extracted are operand A mod 8 and operand B mod 8, as many as the instruction has. -/
theorem registerOperands_toInstr (op : Op) (a b : Byte) :
    registerOperands (op.toInstr a b) <+: [a.toNat % 8, b.toNat % 8] := by
  cases op <;> simp [Op.toInstr, registerOperands, regIndex]

/-- Operand A is a register operand of every instruction that has one. -/
theorem toInstr_and_07_left (op : Op) (a b : Byte) : op.toInstr (a &&& 0x07#8) b = op.toInstr a b := by
  cases op <;> simp only [Op.toInstr, regIndex_and_07]

/-- Operand B is a register operand of every instruction that has one, but LDI. -/
theorem toInstr_and_07_right {op : Op} (hop : op ≠ .ldi) (a b : Byte) : op.toInstr a (b &&& 0x07#8) = op.toInstr a b := by
  cases op
  case ldi => exact absurd rfl hop
  all_goals simp only [Op.toInstr, regIndex_and_07]

end Sys2Proof

/-! Proofs about the state (spec/10_state.md): the reset values, the register file, what every step keeps, which
instructions write and read FL, and what no program can observe. First the laws they share. -/

namespace Sys2Proof.Machine

open Sys2Proof.Claims

variable (s : State)

/-! ## What a step leaves, by the state it leaves -/

@[simp] theorem settleHalt_mem : (settleHalt s).mem = s.mem := by
  cases h : s.halted <;> simp [settleHalt, h]

@[simp] theorem settleHalt_halted : (settleHalt s).halted = s.halted := by
  cases h : s.halted <;> simp [settleHalt, h]

@[simp] theorem settleHalt_ie : (settleHalt s).ie = s.ie := by
  cases h : s.halted <;> simp [settleHalt, h]

@[simp] theorem settleHalt_params : (settleHalt s).params = s.params := by
  cases h : s.halted <;> simp [settleHalt, h]

/-- Out of a Running state, settling makes the status Halted exactly when `halted` is 1 (R104). -/
theorem settleHalt_status_iff {s : State} (h : s.status = .running) :
    (settleHalt s).status = .halted ↔ s.halted = true := by
  cases hh : s.halted <;> simp [settleHalt, hh, h]

/-- The state a step leaves: the same one if it was not Running; else the fetched state with a failed status, or the settled
next state of an instruction. -/
theorem resultState_step_cases {s t : State} (h : resultState (step s) = some t) :
    t = s ∨
    (s.status = .running ∧ ∃ st, st ≠ .halted ∧ t = (fetched s).setStatus st) ∨
    (s.status = .running ∧ ∃ i, t = settleHalt (execNext (fetched s) i)) := by
  rcases step_cases s with ⟨-, hs⟩ | ⟨hrun, e, -, hs⟩ | ⟨hrun, i, -, hs | ⟨hs, -⟩ | ⟨hs, -⟩⟩ <;>
    rw [hs] at h <;> obtain rfl := Option.some.inj h
  · exact .inl rfl
  · exact .inr (.inl ⟨hrun, _, by decide, rfl⟩)
  · exact .inr (.inr ⟨hrun, i, rfl⟩)
  · exact .inr (.inl ⟨hrun, _, by decide, rfl⟩)
  · exact .inr (.inl ⟨hrun, _, by decide, rfl⟩)

/-- No step writes the parameters (spec/00_scope.md R5). -/
theorem resultState_step_params {s t : State} (h : resultState (step s) = some t) : t.params = s.params := by
  rcases resultState_step_cases h with rfl | ⟨-, st, -, rfl⟩ | ⟨-, i, rfl⟩ <;> simp

/-- A load that is let through writes memory and closes the port to a second one, and does nothing else (R281). -/
theorem load_next_eq {bytes : List Byte} {s t : State} (h : load bytes s = .next t) :
    t = (s.setMem (storeBytes 0x00#8 bytes s).mem).setLoadOpen false := by
  rw [← storeBytes_others]
  unfold load at h
  split at h
  · cases h
  · split at h <;> cases h
    rfl

/-! ## The invariant -/

/-- A Running state with the invariant is not halted (R35). -/
theorem StateInv.not_halted {s : State} (h : StateInv s) (hrun : s.status = .running) : s.halted = false := by
  simpa [hrun] using h.2

/-- A failed step keeps the invariant: it writes no memory, and its status is not Halted. -/
theorem StateInv.setStatus_fetched {s : State} (h : StateInv s) (hrun : s.status = .running) {st : Status}
    (hst : st ≠ .halted) : StateInv ((fetched s).setStatus st) :=
  ⟨h.1, by simp [hst, h.not_halted hrun]⟩

/-- An instruction that completes, once settled, keeps the invariant, whichever instruction it is. -/
theorem StateInv.settleHalt_execNext {s : State} (h : StateInv s) (hrun : s.status = .running) (i : Instr) :
    StateInv (settleHalt (execNext (fetched s) i)) :=
  ⟨by simpa using wf_execNext (s := fetched s) i h.1,
    by simpa using settleHalt_status_iff (s := execNext (fetched s) i) (by simpa using hrun)⟩

/-- A load keeps the invariant. -/
theorem StateInv.load {bytes : List Byte} {s t : State} (h : StateInv s) (ht : load bytes s = .next t) : StateInv t := by
  rw [load_next_eq ht]
  exact ⟨wf_storeBytes _ bytes h.1, h.2⟩

/-! ## Which registers, flags and bits an instruction writes -/

/-- Only IRET sets `ie` (R32). -/
theorem execNext_ie (i : Instr) : (execNext s i).ie = (decide (i = .iret) || s.ie) := by
  cases i <;> simp only [execNext] <;> (try split) <;> simp

/-- The registers outside `mayWrite` keep their value. -/
theorem execNext_reg_of_not_mayWrite {i : Instr} {j : Nat} (h : j % 8 ∉ mayWrite i) :
    (execNext s i).reg j = s.reg j := by
  cases i
  case iret =>
    have hj : j % 8 < 8 := Nat.mod_lt j (by decide)
    simp only [mayWrite, List.mem_cons, List.not_mem_nil, or_false] at h
    omega
  all_goals simp only [mayWrite, List.mem_cons, List.not_mem_nil, or_false, not_or] at h
  case jeq | jne | jgt | jlt | jle | jge => simp only [execNext]; split <;> simp
  all_goals simp [execNext, push_reg, pop_reg, reg_setReg_other, h]

/-- The flags an instruction leaves: CMP's comparison, the byte IRET pops, and otherwise the old ones (R28). -/
theorem execNext_fl (i : Instr) :
    (execNext s i).fl =
      match i with
      | .cmp ra rb => compareFlags s.fl (s.reg ra) (s.reg rb)
      | .iret => s.byteAt (s.reg 7 + 7#8)
      | _ => s.fl := by
  cases i
  case iret => simpa [execNext] using (popFl_popRegs_spec s).2.1
  case jeq | jne | jgt | jlt | jle | jge => simp only [execNext]; split <;> rfl
  all_goals simp [execNext]

/-- The low three flags of a comparison: exactly one of L, G, E, whatever the flags were (R218). -/
theorem compareFlags_and_07 (fl x y : Byte) :
    compareFlags fl x y &&& 0x07#8 =
      if x.toNat < y.toNat then 0x04#8 else if y.toNat < x.toNat then 0x02#8 else 0x01#8 := by
  apply BitVec.eq_of_getLsbD_eq
  intro k hk
  rw [BitVec.getLsbD_and, compareFlags_bit fl x y k hk]
  split_ifs <;> interval_cases k <;> simp <;> omega

/-- A comparison keeps bits 7:3 (R28, R218). -/
theorem compareFlags_and_F8 (fl x y : Byte) : compareFlags fl x y &&& 0xF8#8 = fl &&& 0xF8#8 := by
  apply BitVec.eq_of_getLsbD_eq
  intro k hk
  rw [BitVec.getLsbD_and, BitVec.getLsbD_and, compareFlags_bit fl x y k hk]
  interval_cases k <;> simp

end Sys2Proof.Machine

/-! What the value of `ie` and of FL can reach (spec/10_state.md R27, R29, R32 to R34): the laws of noninterference. -/

namespace Sys2Proof.Machine

open Sys2Proof.Claims

variable (s : State)

/-! ## exec as an equation: when it fails, and `execNext` otherwise -/

/-- A DIV or MOD whose divisor is zero (spec/47_alu.md R216, R217). -/
def dividesByZero (s : State) : Instr → Bool
  | .div _ rb => s.reg rb == 0x00#8
  | .mod _ rb => s.reg rb == 0x00#8
  | _ => false

/-- An INT under INT_MODE = refuse (spec/45_call_interrupt.md R180). -/
def refusesInt (s : State) : Instr → Bool
  | .int _ => s.params.intMode == .refuse
  | _ => false

theorem exec_eq (i : Instr) :
    exec i s =
      if dividesByZero s i then raise .divisionByZero s
      else if refusesInt s i then refuseInt s
      else .next (execNext s i) := by
  cases i
  case div ra rb =>
    by_cases h : s.reg rb = 0x00#8
    · simp [exec, execDiv, aluDividing, dividesByZero, h]
    · simpa [dividesByZero, refusesInt, h] using exec_div s ra rb h
  case mod ra rb =>
    by_cases h : s.reg rb = 0x00#8
    · simp [exec, execMod, aluDividing, dividesByZero, h]
    · simpa [dividesByZero, refusesInt, h] using exec_mod s ra rb h
  case int ra => cases h : s.params.intMode <;> simp [exec, execInt, dividesByZero, refusesInt, h, finish_eq, execNext]
  case jeq | jne | jgt | jlt | jle | jge => exact jumpIf_eq s _ _
  all_goals rfl

@[simp] theorem dividesByZero_setFl (v : Byte) (i : Instr) : dividesByZero (s.setFl v) i = dividesByZero s i := by
  cases i <;> rfl

@[simp] theorem refusesInt_setFl (v : Byte) (i : Instr) : refusesInt (s.setFl v) i = refusesInt s i := by
  cases i <;> rfl

@[simp] theorem dividesByZero_setIe (v : Bool) (i : Instr) : dividesByZero (s.setIe v) i = dividesByZero s i := by
  cases i <;> rfl

@[simp] theorem refusesInt_setIe (v : Bool) (i : Instr) : refusesInt (s.setIe v) i = refusesInt s i := by
  cases i <;> rfl

/-! ## The value of FL -/

/-- The condition a conditional jump takes of FL (spec/46_jumps.md R191); no other instruction has one. -/
def jumpCond (fl : Byte) : Instr → Bool
  | .jeq _ => condEq fl
  | .jne _ => condNe fl
  | .jgt _ => condGt fl
  | .jlt _ => condLt fl
  | .jle _ => condLe fl
  | .jge _ => condGe fl
  | _ => false

theorem jumpCond_of_not_conditionalJump {i : Instr} (h : isConditionalJump i = false) (fl : Byte) :
    jumpCond fl i = false := by
  cases i <;> simp_all [isConditionalJump, jumpCond]

/-- FL reaches the next state only through a jump's condition, but for FL itself (R29). -/
theorem execNext_setFl {v : Byte} {i : Instr} (h : jumpCond v i = jumpCond s.fl i) (w : Byte) :
    (execNext (s.setFl v) i).setFl w = (execNext s i).setFl w := by
  cases i
  case jeq | jne | jgt | jlt | jle | jge =>
    simp only [jumpCond] at h
    simp only [execNext, setFl_fl, h]
    split <;> rfl
  all_goals rfl

/-- FL reaches the answer of an instruction only through a jump's condition, but for FL itself (R29). -/
theorem withoutFlags_exec_setFl {v : Byte} {i : Instr} (h : jumpCond v i = jumpCond s.fl i) :
    withoutFlags (exec i (s.setFl v)) = withoutFlags (exec i s) := by
  rw [exec_eq, exec_eq, dividesByZero_setFl, refusesInt_setFl]
  split_ifs
  · rfl
  · rfl
  · exact congrArg Host.Outcome.next (execNext_setFl s h 0x00#8)

theorem getLsbD_eq_of_and_07 {v w : Byte} (h : v &&& 0x07#8 = w &&& 0x07#8) {k : Nat} (hk : k < 3) :
    v.getLsbD k = w.getLsbD k := by
  have hbit := congrArg (BitVec.getLsbD · k) h
  interval_cases k <;> simpa using hbit

/-- The jumps read bits 2:0 of FL only (R27, R29). -/
theorem jumpCond_eq_of_and_07 {v w : Byte} (h : v &&& 0x07#8 = w &&& 0x07#8) (i : Instr) :
    jumpCond v i = jumpCond w i := by
  have hE : flagBit v flagE = flagBit w flagE := getLsbD_eq_of_and_07 h (by decide)
  have hG : flagBit v flagG = flagBit w flagG := getLsbD_eq_of_and_07 h (by decide)
  have hL : flagBit v flagL = flagBit w flagL := getLsbD_eq_of_and_07 h (by decide)
  cases i <;> simp only [jumpCond, condEq, condNe, condGt, condLt, condLe, condGe, hE, hG, hL]

/-- What an instruction leaves in FL bits 2:0 depends on bits 2:0 only. -/
theorem execNext_setFl_fl_and_07 {v : Byte} (h : v &&& 0x07#8 = s.fl &&& 0x07#8) (i : Instr) :
    (execNext (s.setFl v) i).fl &&& 0x07#8 = (execNext s i).fl &&& 0x07#8 := by
  rw [execNext_fl, execNext_fl]
  cases i
  case cmp ra rb => simp only [compareFlags_and_07, setFl_reg]
  case iret => rfl
  all_goals exact h

/-! ## The value of `ie` -/

/-- `ie` reaches nothing but itself (R32). -/
theorem execNext_setIe (b c : Bool) (i : Instr) : (execNext (s.setIe b) i).setIe c = (execNext s i).setIe c := by
  cases i
  case jeq | jne | jgt | jlt | jle | jge => simp only [execNext, apply_ite (State.setIe · c)]; rfl
  all_goals rfl

/-! ## What no program can observe -/

@[simp] theorem forgetHidden_setIe (b : Bool) : forgetHidden (s.setIe b) = forgetHidden s := rfl

/-- States that differ in FL only, and there in bits 7:3 only, agree on all a program can observe. -/
theorem forgetHidden_eq_of_setFl {s t : State} {w : Byte} (h : s.setFl w = t.setFl w)
    (hfl : s.fl &&& 0x07#8 = t.fl &&& 0x07#8) : forgetHidden s = forgetHidden t := by
  have hs := congrArg (fun u => (forgetHidden u).setFl (s.fl &&& 0x07#8)) h
  calc forgetHidden s = (forgetHidden t).setFl (s.fl &&& 0x07#8) := hs
    _ = forgetHidden t := by rw [hfl]; rfl

/-- Settling the halt status and forgetting what is hidden commute. -/
theorem forgetHidden_settleHalt : forgetHidden (settleHalt s) = settleHalt (forgetHidden s) := by
  cases h : s.halted <;> simp [settleHalt, forgetHidden, h, State.setStatus]

/-- Neither `ie` nor FL bits 7:3 reach the visible part of the next state. -/
theorem forgetHidden_execNext_setFl_setIe (b : Bool) {v : Byte} (h : v &&& 0x07#8 = s.fl &&& 0x07#8) (i : Instr) :
    forgetHidden (execNext ((s.setFl v).setIe b) i) = forgetHidden (execNext s i) := by
  rw [← forgetHidden_setIe _ b, execNext_setIe, forgetHidden_setIe]
  exact forgetHidden_eq_of_setFl (execNext_setFl s (jumpCond_eq_of_and_07 h i) 0x00#8) (execNext_setFl_fl_and_07 s h i)

/-- A state a step stops in shows as little of `ie` and FL bits 7:3. -/
theorem forgetHidden_setStatus_setFl_setIe (b : Bool) {v : Byte} (h : v &&& 0x07#8 = s.fl &&& 0x07#8) (st : Status) :
    forgetHidden (((s.setFl v).setIe b).setStatus st) = forgetHidden (s.setStatus st) :=
  forgetHidden_eq_of_setFl (s := (s.setFl v).setStatus st) (w := 0x00#8) rfl h

/-- Neither `ie` nor FL bits 7:3 reach the visible part of the answer of the cycle. -/
theorem observe_afterExecute_exec_setFl_setIe (b : Bool) {v : Byte} (h : v &&& 0x07#8 = s.fl &&& 0x07#8) (i : Instr) :
    observe (afterExecute (exec i ((s.setFl v).setIe b))) = observe (afterExecute (exec i s)) := by
  rw [exec_eq, exec_eq, dividesByZero_setIe, dividesByZero_setFl, refusesInt_setIe, refusesInt_setFl]
  split_ifs
  · simp only [raise_divisionByZero, afterExecute, observe, forgetHidden_setStatus_setFl_setIe s b h]
  · simp only [refuseInt_eq, afterExecute, observe, forgetHidden_setStatus_setFl_setIe s b h]
  · simp only [afterExecute, observe, forgetHidden_settleHalt, forgetHidden_execNext_setFl_setIe s b h]

/-- Fetch overwrites the latches and the fetch registers, so the hidden fields that a handler can still see are `ie` and FL
bits 7:3 (R33, R34, R100). -/
theorem fetched_forgetHidden :
    fetched (forgetHidden s) = ((fetched s).setFl (s.fl &&& 0x07#8)).setIe false := rfl

/-- Bits 2:0 of bits 2:0. -/
theorem and_07_and_07 (v : Byte) : v &&& 0x07#8 &&& 0x07#8 = v &&& 0x07#8 := by
  rw [BitVec.and_assoc, BitVec.and_self]

theorem forgetHidden_forgetHidden : forgetHidden (forgetHidden s) = forgetHidden s := by
  simp [forgetHidden, and_07_and_07]

/-- A step shows the same whether the hidden fields are kept or forgotten before it. -/
theorem observe_step_forgetHidden : observe (step (forgetHidden s)) = observe (step s) := by
  have hlow : s.fl &&& 0x07#8 &&& 0x07#8 = (fetched s).fl &&& 0x07#8 := and_07_and_07 s.fl
  by_cases hrun : s.status = .running
  · have hrun' : (forgetHidden s).status = .running := hrun
    cases hi : nextInstr s with
    | error e =>
      rw [step_running_error hrun hi, step_running_error (s := forgetHidden s) hrun' hi, fetched_forgetHidden]
      exact congrArg (fun t => Host.Outcome.fault (Fault.undefinedOpcode (s.byteAt s.pc) t))
        (forgetHidden_setStatus_setFl_setIe (fetched s) false hlow _)
    | ok i =>
      rw [step_running_ok hrun hi, step_running_ok (s := forgetHidden s) hrun' hi, fetched_forgetHidden]
      exact observe_afterExecute_exec_setFl_setIe (fetched s) false hlow i
  · rw [step_not_running hrun, step_not_running (s := forgetHidden s) hrun]
    exact congrArg Host.Outcome.next (forgetHidden_forgetHidden s)

end Sys2Proof.Machine

/-! The statements of the family about the state, each settled from the laws above. -/

namespace Sys2Proof.Proofs

open Sys2Proof.Machine Sys2Proof.Claims

/-- Settles O3: by the three ways a step can leave a state. -/
theorem stepKeepsInvariant : Obligations.StepKeepsInvariant := by
  intro s t hinv ht
  rcases resultState_step_cases ht with rfl | ⟨hrun, st, hst, rfl⟩ | ⟨hrun, i, rfl⟩
  · exact hinv
  · exact hinv.setStatus_fetched hrun hst
  · exact hinv.settleHalt_execNext hrun i

/-- Settles O58: a step shows the same from a state and from what the state shows. -/
theorem hiddenStateIsNeverObserved : Obligations.HiddenStateIsNeverObserved := by
  intro s s' h
  calc observe (step s) = observe (step (forgetHidden s)) := (observe_step_forgetHidden s).symm
    _ = observe (step (forgetHidden s')) := by rw [h]
    _ = observe (step s') := observe_step_forgetHidden s'

/-- Settles O2. -/
theorem invariantHoldsAtReset : Obligations.InvariantHoldsAtReset := fun p =>
  ⟨rfl, by simp [State.resetWith]⟩

/-- Settles O4, by induction on how the state is reached. -/
theorem reachableStatesKeepInvariant : Obligations.ReachableStatesKeepInvariant := by
  intro p s hs
  induction hs with
  | reset => exact ⟨invariantHoldsAtReset p, rfl⟩
  | load bytes _ ht ih => exact ⟨ih.1.load ht, by rw [load_next_eq ht]; exact ih.2⟩
  | step _ ht ih => exact ⟨stepKeepsInvariant _ _ ih.1 ht, (resultState_step_params ht).trans ih.2⟩

/-- Settles O52: the three clauses are the three cases of `execNext_fl`. -/
theorem onlyCmpAndIretWriteFlags : Obligations.OnlyCmpAndIretWriteFlags := by
  intro i s t ht
  obtain rfl := exec_next_eq ht
  refine ⟨?cmp, ?iret, ?other⟩
  case cmp =>
    rintro ⟨ra, rb, rfl⟩
    rw [execNext_fl, compareFlags_and_F8, compareFlags_and_07]
    refine ⟨rfl, ?_⟩
    split_ifs <;> simp
  case iret =>
    rintro rfl
    exact execNext_fl s .iret
  case other =>
    intro hcmp hiret
    rw [execNext_fl]
    split
    · exact absurd rfl (hcmp _ _)
    · exact absurd rfl hiret
    · rfl

/-- Settles O53: FL reaches an answer only through the condition of a jump, and each condition reads its own bits. -/
theorem onlyConditionalJumpsReadFlags : Obligations.OnlyConditionalJumpsReadFlags := by
  refine ⟨fun i s v hi => ?_, fun s v ra => ?_⟩
  · have hcond : jumpCond v i = jumpCond s.fl i := by
      rw [jumpCond_of_not_conditionalJump hi, jumpCond_of_not_conditionalJump hi]
    exact (withoutFlags_exec_setFl s hcond).symm
  · have hjump : ∀ i, jumpCond v i = jumpCond s.fl i →
        withoutFlags (exec i s) = withoutFlags (exec i (s.setFl v)) := fun i h => (withoutFlags_exec_setFl s h).symm
    have hE : v.getLsbD 0 = s.fl.getLsbD 0 → flagBit v flagE = flagBit s.fl flagE := id
    have hG : v.getLsbD 1 = s.fl.getLsbD 1 → flagBit v flagG = flagBit s.fl flagG := id
    have hL : v.getLsbD 2 = s.fl.getLsbD 2 → flagBit v flagL = flagBit s.fl flagL := id
    refine ⟨fun h0 => ⟨hjump _ (hE h0), hjump _ ?_⟩, fun h1 => hjump _ (hG h1), fun h2 => hjump _ (hL h2),
      fun h2 h0 => hjump _ ?_, fun h1 h0 => hjump _ ?_⟩
    · simp only [jumpCond, condNe, hE h0]
    · simp only [jumpCond, condLe, hL h2, hE h0]
    · simp only [jumpCond, condGe, hG h1, hE h0]

/-- Settles O54. -/
theorem onlyNamedRegistersChange : Obligations.OnlyNamedRegistersChange := by
  intro i s t ht j hj
  rw [exec_next_eq ht]
  exact execNext_reg_of_not_mayWrite s hj

/-- Settles O57: of a step by the state it leaves, of an instruction by `execNext_ie` and `execNext_halted`. -/
theorem interruptEnableAndHaltAreSticky : Obligations.InterruptEnableAndHaltAreSticky := by
  refine ⟨fun s t ht => ?_, fun i s t ht => ?_⟩
  · rcases resultState_step_cases ht with rfl | ⟨-, st, -, rfl⟩ | ⟨-, i, rfl⟩
    · exact ⟨id, id⟩
    · exact ⟨id, id⟩
    · simp only [settleHalt_ie, settleHalt_halted, execNext_ie, execNext_halted, fetched_ie, fetched_halted]
      exact ⟨fun h => by simp [h], fun h => by simp [h]⟩
  · rw [exec_next_eq ht, execNext_ie, execNext_halted]
    refine ⟨fun h => ?_, fun h => ?_⟩ <;> by_contra hi <;> exact h (by simp [hi])

/-- Settles O1. -/
theorem resetValuesOfEveryField : Obligations.ResetValuesOfEveryField := by
  refine ⟨rfl, rfl, fun p => ?_⟩
  refine ⟨fun j hj => ?_, rfl, fun a => rfl, rfl, rfl, rfl, rfl, rfl, rfl, rfl, rfl, rfl, rfl, rfl⟩
  interval_cases j <;> rfl

/-- Settles O13. -/
theorem registerIndexWrapsModulo8 : Obligations.RegisterIndexWrapsModulo8 := by
  refine ⟨fun s i => ⟨?_, (reg_mod s i).symm⟩, fun s i v => ?_, fun op a b => ⟨?_, ?_, ?_⟩⟩
  · rw [← reg_mod, Nat.add_mod_right, reg_mod]
  · rw [← setReg_mod, Nat.add_mod_right, setReg_mod]
  · exact registerOperands_toInstr op a b
  · rw [← toInstr_and_07_left]
  · exact fun hop => (toInstr_and_07_right hop a b).symm

/-- Settles O14. -/
theorem registerReadAfterWrite : Obligations.RegisterReadAfterWrite := fun s i j v =>
  ⟨(reg_setReg s i j v).trans (if_congr eq_comm rfl rfl), rfl⟩

/-- Settles O59: IM and IS as registers 5 and 6, and the frame of the registers. -/
theorem interruptAliasesAreOrdinaryRegisters : Obligations.InterruptAliasesAreOrdinaryRegisters := by
  refine ⟨fun s v => ⟨reg_setReg_same s 5 v, reg_setReg_same s 6 v, ?_, ?_⟩, fun i s t ht => ⟨fun h => ?_, fun h => ?_⟩⟩
  · exact reg_setReg_other s v (by decide)
  · exact reg_setReg_other s v (by decide)
  · exact onlyNamedRegistersChange i s t ht 5 h
  · exact onlyNamedRegistersChange i s t ht 6 h

end Sys2Proof.Proofs

/-! Proofs about memory and the stack (spec/20_memory.md): balanced pushes and pops, which bytes and latches an instruction
writes, and what the next fetch sees of a store. First the laws they share. -/

namespace Sys2Proof.Machine

open Sys2Proof.Claims

variable (s : State)

/-! ## Balanced pushes and pops (R60 to R62) -/

/-- push as one memory write after the one register write (R60). -/
theorem push_eq (v : Byte) : push s v = memWrite (s.setReg 7 (s.reg 7 - 1#8)) (s.reg 7 - 1#8) v := by
  simp [push]

/-- The state after `n + 1` pops, seen from the last of them. -/
theorem popAll_succ (n : Nat) :
    popAll (n + 1) s = ((popAll n s).1 ++ [(pop (popAll n s).2).1], (pop (popAll n s).2).2) := by
  induction n generalizing s with
  | zero => rfl
  | succ n ih => rw [popAll, ih]; rfl

/-- Clearing the cell at `x` after the `n` cells below it. -/
theorem clear_above (x a v : Byte) (n : Nat) :
    (if x = a then 0x00#8 else if (x - 1#8 - a).toNat < n then 0x00#8 else v) =
      if (x - a).toNat < n + 1 then 0x00#8 else v := by
  by_cases hx : x = a
  · simp [hx]
  · have hoff : (x - a).toNat = (x - 1#8 - a).toNat + 1 := by bv_omega
    simp [hx, hoff]

/-- After as many pops as pushes: the bytes pushed in reverse order, every register as before, the pushed cells cleared and
every other cell as before. The outermost pair is the first push and the last pop; the pushes between them stop short of its
cell, because together they are at most 256. -/
theorem popAll_pushAll (vs : List Byte) (hlen : vs.length ≤ 256) :
    (popAll vs.length (pushAll vs s)).1 = vs.reverse ∧
    RegsSame s (popAll vs.length (pushAll vs s)).2 ∧
    ∀ a : Byte, (popAll vs.length (pushAll vs s)).2.byteAt a =
      if (s.reg 7 - 1#8 - a).toNat < vs.length then 0x00#8 else s.byteAt a := by
  induction vs generalizing s with
  | nil => exact ⟨rfl, fun _ => rfl, fun _ => by simp [popAll, pushAll]⟩
  | cons v rest ih =>
    rw [List.length_cons] at hlen ⊢
    obtain ⟨hvals, hregs, hbytes⟩ := ih (push s v) (by omega)
    rw [pushAll, popAll_succ]
    generalize popAll rest.length (pushAll rest (push s v)) = q at hvals hregs hbytes ⊢
    have hsp : q.2.reg 7 = s.reg 7 - 1#8 := (hregs 7).trans (push_sp s v)
    have hfirst : q.2.byteAt (s.reg 7 - 1#8) = v := by
      have hoff : (s.reg 7 - 1#8 - 1#8 - (s.reg 7 - 1#8)).toNat = 255 := by bv_omega
      rw [hbytes, push_sp, hoff, if_neg (by omega), push_byteAt, if_pos rfl]
    refine ⟨?_, fun j => ?_, fun a => ?_⟩
    · rw [pop_fst, hsp, hfirst, hvals, List.reverse_cons]
    · rw [pop_reg, hsp, hregs, push_reg, BitVec.sub_add_cancel]
      split_ifs with hj
      · rw [← reg_mod s j, hj]
      · rfl
    · rw [← clear_above, pop_byteAt, hsp, hbytes, push_sp, push_byteAt]
      split_ifs <;> rfl

/-! ## Which bytes and latches an instruction writes (R55) -/

/-- IRET clears the nine cells of its frame (R182). -/
theorem execNext_iret_byteAt (a : Byte) :
    (execNext s .iret).byteAt a = if (a - s.reg 7).toNat < 9 then 0x00#8 else s.byteAt a := by
  obtain ⟨hsp, -, hbytes, -⟩ := popFl_popRegs_spec s
  calc (execNext s .iret).byteAt a = (pop (popFl (popRegs s))).2.byteAt a := rfl
    _ = if (a - s.reg 7).toNat < 9 then 0x00#8 else s.byteAt a := by
      rw [pop_byteAt, hsp, hbytes]; exact clear_next _ _ _ 8 (by decide)

/-- The bytes an instruction does not store to keep their value. -/
theorem execNext_byteAt_of_not_storesTo {i : Instr} {a : Byte} (ha : storesTo s i ≠ some a)
    (hframe : i = .iret → 9 ≤ (a - s.reg 7).toNat) : (execNext s i).byteAt a = s.byteAt a := by
  cases i
  case iret => rw [execNext_iret_byteAt, if_neg (Nat.not_lt.2 (hframe rfl))]
  case push | pop | call | ret | st =>
    simp only [storesTo, sp_eq, regAddress_eq, ne_eq, Option.some.injEq] at ha
    simp [execNext, push_byteAt, pop_byteAt, memWrite_byteAt, ha]
  case jeq | jne | jgt | jlt | jle | jge => simp only [execNext]; split <;> rfl
  all_goals rfl

/-- An instruction that makes no memory access leaves the latches as its fetch left them. -/
theorem execNext_latches_of_no_access {i : Instr} (hstore : storesTo s i = none) (hiret : i ≠ .iret)
    (hld : ∀ ra rb, i ≠ .ld ra rb) : (execNext s i).mar = s.mar ∧ (execNext s i).mdr = s.mdr := by
  cases i
  case push | pop | call | ret | st => cases hstore
  case iret => exact absurd rfl hiret
  case ld ra rb => exact absurd rfl (hld ra rb)
  case jeq | jne | jgt | jlt | jle | jge => simp only [execNext]; split <;> exact ⟨rfl, rfl⟩
  all_goals exact ⟨rfl, rfl⟩

/-- Memory after ST (R162). -/
theorem execNext_st_byteAt (ra rb : Nat) (a : Byte) :
    (execNext s (.st ra rb)).byteAt a = if a = s.reg ra then s.reg rb else s.byteAt a := by
  simp [execNext, memWrite_byteAt, eq_comm (a := a)]

end Sys2Proof.Machine

/-! The statements of the family about memory, each settled from the laws above. -/

namespace Sys2Proof.Proofs

open Sys2Proof.Machine Sys2Proof.Claims

/-- Settles O17, by induction on the bytes pushed. -/
theorem balancedStackIsLifo : Obligations.BalancedStackIsLifo := fun vs s hlen => popAll_pushAll s vs hlen

/-- Settles O55. -/
theorem onlyStoresChangeMemory : Obligations.OnlyStoresChangeMemory := by
  intro i s t ht
  obtain rfl := exec_next_eq ht
  exact ⟨fun a => execNext_byteAt_of_not_storesTo s, execNext_latches_of_no_access s⟩

/-- Settles O15. -/
theorem latchProtocol : Obligations.LatchProtocol := by
  refine ⟨fun s a => ⟨rfl, rfl, rfl, fun b => rfl, rfl⟩, fun s a v => ⟨rfl, rfl, ?_, fun b hb => ?_, rfl⟩⟩
  · exact (memWrite_byteAt s a v a).trans (if_pos rfl)
  · exact (memWrite_byteAt s a v b).trans (if_neg hb.symm)

/-- Settles O16. -/
theorem pushAndPopPrimitives : Obligations.PushAndPopPrimitives := by
  refine ⟨fun s v => ⟨push_sp s v, ?_, fun b hb => ?_, fun j hj => ?_, ?_⟩,
    fun s => ⟨rfl, pop_sp s, ?_, fun b hb => ?_, fun j hj => ?_, rfl⟩⟩
  · exact (push_byteAt s v _).trans (if_pos rfl)
  · exact (push_byteAt s v b).trans (if_neg hb.symm)
  · exact (push_reg s v j).trans (if_neg hj)
  · rw [push_eq]; rfl
  · exact (pop_byteAt s _).trans (if_pos rfl)
  · exact (pop_byteAt s b).trans (if_neg hb.symm)
  · exact (pop_reg s j).trans (if_neg hj)

/-- Settles O38: fetch reads the memory ST left, at the PC, PC+1 and PC+2. -/
theorem storeIsSeenByNextFetch : Obligations.StoreIsSeenByNextFetch := by
  intro s ra rb t ht
  obtain rfl := exec_next_eq ht
  exact ⟨execNext_st_byteAt s ra rb _, execNext_st_byteAt s ra rb _, execNext_st_byteAt s ra rb _⟩

end Sys2Proof.Proofs

/-! Proofs about the encoding (spec/30_encoding.md): what the operand bytes of an instruction determine, what decoding
answers, the default map under both unary encodings, and the length bits of an opcode. First the laws they share. -/

namespace Sys2Proof.Laws.OperandBytes

/-- Every instruction: the operand bytes an assembler writes give it back. -/
theorem toInstr_operandBytes (i : Instr) : Statement i :=
  i.rec nop hlt ret iret push pop prn pra call int jmp jeq jne jgt jlt jle jge ldi ld st add sub mul div mod inc dec cmp and
    not or xor shl shr

end Sys2Proof.Laws.OperandBytes

namespace Sys2Proof

open Sys2Proof.Claims

/-! ## Operations and their operand bytes -/

theorem Op.mem_all (op : Op) : op ∈ Op.all := by cases op <;> decide

theorem regOk_regIndex (o : Byte) : regOk (regIndex o) = true := decide_eq_true (Nat.mod_lt o.toNat (by decide))

/-- What operand extraction makes of any two bytes is well-formed: each register index is below 8 (R83). -/
theorem wellFormed_toInstr (op : Op) (a b : Byte) : (op.toInstr a b).wellFormed = true := by
  cases op <;> simp only [Op.toInstr, Instr.wellFormed, regOk_regIndex, Bool.and_self]

/-- Operand extraction reads no more operand bytes than the operation has operands. -/
theorem toInstr_congr {op : Op} {a a' b b' : Byte} (ha : 1 ≤ op.operands → a = a') (hb : 2 ≤ op.operands → b = b') :
    op.toInstr a b = op.toInstr a' b' := by
  cases op <;> simp_all [Op.operands, Op.toInstr]

/-- INC, DEC and NOT ignore operand B (R83). -/
theorem toInstr_unary_right {op : Op} (hop : (ls8UnaryByte op).isSome = true) (a b b' : Byte) :
    op.toInstr a b = op.toInstr a b' := by
  cases op
  case inc | dec | not => rfl
  all_goals cases hop

/-- Under a row of a proper map, operand extraction reads only as many operand bytes as the opcode byte's bits 7:6 say, also
where INC, DEC or NOT is a one-operand row (R84, R85). -/
theorem toInstr_congr_of_rowOk {c : Byte} {op : Op} {a a' b b' : Byte} (hrow : rowOk (c, op) = true)
    (ha : 1 ≤ operandCount c → a = a') (hb : 2 ≤ operandCount c → b = b') : op.toInstr a b = op.toInstr a' b' := by
  simp only [rowOk, Bool.or_eq_true, Bool.and_eq_true, beq_iff_eq] at hrow
  rcases hrow with hcount | ⟨hunary, hcount⟩ <;> rw [hcount] at ha hb
  · exact toInstr_congr ha hb
  · rw [ha le_rfl, toInstr_unary_right hunary]

/-! ## What decoding answers -/

/-- An opcode byte looks up nothing exactly when it stands in no row. -/
theorem lookupOp_eq_none_iff {m : OpcodeMap} {b : Byte} : lookupOp m b = none ↔ b.toNat ∉ m.map (·.1.toNat) := by
  induction m with
  | nil => simp [lookupOp]
  | cons row rest ih =>
    by_cases h : row.1 = b
    · simp [lookupOp, h]
    · simpa [lookupOp, h, BitVec.toNat_inj, eq_comm (a := b)] using ih

theorem rowOk_of_mem {p : Params} (hp : p.wf = true) {row : Byte × Op} (h : row ∈ p.opcodes) : rowOk row = true := by
  simp only [Params.wf, OpcodeMap.wf, Bool.and_eq_true, List.all_eq_true] at hp
  obtain ⟨⟨-, hrows⟩, -⟩ := hp
  exact hrows row h

/-- Under a proper map every operation has an opcode byte (R84). -/
theorem exists_byteOf {p : Params} (hp : p.wf = true) (op : Op) : ∃ b, byteOf p.opcodes op = some b := by
  simp only [Params.wf, OpcodeMap.wf, Bool.and_eq_true, List.all_eq_true] at hp
  obtain ⟨-, hops⟩ := hp
  exact Option.isSome_iff_exists.1 (hops op op.mem_all)

/-- A byte with bits 7:6 = 11 is no opcode of any map (R81). -/
theorem decodeFetched_of_operandCount_eq_three {op : Byte} (h : operandCount op = 3) (p : Params) (opA opB : Byte) :
    decodeFetched p op opA opB = .error (.undefinedOpcode op) := if_pos h

/-- Under a proper map an opcode byte is undefined exactly when no row has it (R87). -/
theorem decodeFetched_eq_undefined_iff {p : Params} (hp : p.wf = true) {b opA opB : Byte} :
    decodeFetched p b opA opB = .error (.undefinedOpcode b) ↔ lookupOp p.opcodes b = none := by
  unfold decodeFetched
  cases hop : lookupOp p.opcodes b with
  | none => simp
  | some op =>
    have hle : operandCount b ≤ 2 := operandCount_of_rowOk (rowOk_of_mem hp (mem_of_lookupOp hop))
    simp [show operandCount b ≠ 3 by omega]

/-- What the fetched bytes decode to is what some operation makes of the operand bytes. -/
theorem decodeFetched_eq_ok {p : Params} {b opA opB : Byte} {i : Instr} (h : decodeFetched p b opA opB = .ok i) :
    ∃ op : Op, i = op.toInstr opA opB := by
  unfold decodeFetched at h
  split at h
  · cases h
  · split at h <;> cases h
    exact ⟨_, rfl⟩

/-- Decoding a list of bytes succeeds when its opcode byte decodes and the operand bytes are all there (R80, R89). -/
theorem decode_cons_eq_ok_iff {p : Params} {b : Byte} {bytes rest : List Byte} {i : Instr} :
    decode p (b :: bytes) = .ok (i, rest) ↔
      decodeFetched p b (bytes.getD 0 0#8) (bytes.getD 1 0#8) = .ok i ∧ operandCount b ≤ bytes.length ∧
        bytes.drop (operandCount b) = rest := by
  rw [decode]
  split
  next e he => rw [he]; simp
  next j hj =>
    rw [hj]
    split_ifs with hlen
    · simp [hlen]
    · simp [Nat.not_lt.1 hlen]

/-- A byte of the first `n` of a list is read from them, whatever bytes follow. -/
theorem getD_take_append {n k : Nat} {l : List Byte} (rest : List Byte) (hk : k < n) (hl : k < l.length) :
    (l.take n ++ rest).getD k 0#8 = l.getD k 0#8 := by
  rw [List.getD_append _ _ _ _ (by simp [hk, hl])]
  simp [List.getD_eq_getElem?_getD, hk]

/-- Decoding what `encode` writes, with any bytes after it: the map's row gives the operation back, and the operand bytes
written are as many as the operation reads. -/
theorem decode_encode_append {p : Params} {i : Instr} (rest : List Byte) (hp : p.wf = true) (hi : i.wellFormed = true) :
    decode p (encode p i ++ rest) = .ok (i, rest) := by
  obtain ⟨b, hb⟩ := exists_byteOf hp i.op
  have hrow : rowOk (b, i.op) = true := rowOk_of_mem hp (mem_of_byteOf hb)
  have hlen : ([i.operandBytes.1, i.operandBytes.2].take (operandCount b)).length = operandCount b := by
    simpa using operandCount_of_rowOk hrow
  rw [encode, hb, List.cons_append]
  refine decode_cons_eq_ok_iff.2 ⟨?_, ?_, List.drop_left' hlen⟩
  · rw [decodeFetched_of_byteOf hp hb]
    refine congrArg _ (Eq.trans ?_ (Laws.OperandBytes.toInstr_operandBytes i hi))
    exact toInstr_congr_of_rowOk hrow (getD_take_append rest · (by simp)) (getD_take_append rest · (by simp))
  · rw [List.length_append, hlen]
    exact Nat.le_add_right _ _

/-! ## The default map under both unary encodings -/

/-- The default parameters with the given UNARY_ALU_ENCODING. -/
def defaultParamsWith (u : UnaryAluEncoding) : Params := { defaultParams with unaryAluEncoding := u }

/-- Over the default map the opcodes in force depend on UNARY_ALU_ENCODING only. -/
theorem opcodes_of_defaultMap {p : Params} (h : DefaultMap p) :
    p.opcodes = (defaultParamsWith p.unaryAluEncoding).opcodes := by
  rw [Params.opcodes, show p.opcodeMap = defaultOpcodeMap from h]
  rfl

theorem wf_of_defaultMap {p : Params} (h : DefaultMap p) : p.wf = true := by
  rw [Params.wf, opcodes_of_defaultMap h]
  cases p.unaryAluEncoding <;> decide

theorem decodeFetched_of_defaultMap {p : Params} (h : DefaultMap p) (b opA opB : Byte) :
    decodeFetched p b opA opB = decodeFetched (defaultParamsWith p.unaryAluEncoding) b opA opB := by
  rw [decodeFetched, decodeFetched, opcodes_of_defaultMap h]

theorem lookupOp_twoOperand_eq_none_iff (b : Byte) :
    lookupOp (defaultParamsWith .twoOperand).opcodes b = none ↔ IllegalTwoOperand b.toNat := by
  have hb : b.toNat < 256 := b.isLt
  have hlegal : (defaultParamsWith .twoOperand).opcodes.map (·.1.toNat) =
    [0x00, 0x01, 0x11, 0x13, 0x45, 0x46, 0x47, 0x48, 0x50, 0x52, 0x54, 0x55, 0x56, 0x57, 0x58, 0x59, 0x5A, 0x82, 0x83, 0x84,
      0xA0, 0xA1, 0xA2, 0xA3, 0xA4, 0xA5, 0xA6, 0xA7, 0xA8, 0xA9, 0xAA, 0xAB, 0xAC, 0xAD] := rfl
  simp only [lookupOp_eq_none_iff, hlegal, List.mem_cons, List.not_mem_nil, or_false, not_or, IllegalTwoOperand]
  omega

theorem lookupOp_ls8OneOperand_eq_none_iff (b : Byte) :
    lookupOp (defaultParamsWith .ls8OneOperand).opcodes b = none ↔
      (IllegalTwoOperand b.toNat ∧ b.toNat ≠ 0x65 ∧ b.toNat ≠ 0x66 ∧ b.toNat ≠ 0x69) ∨
        b.toNat = 0xA5 ∨ b.toNat = 0xA6 ∨ b.toNat = 0xA9 := by
  have hb : b.toNat < 256 := b.isLt
  have hlegal : (defaultParamsWith .ls8OneOperand).opcodes.map (·.1.toNat) =
    [0x00, 0x01, 0x11, 0x13, 0x45, 0x46, 0x47, 0x48, 0x50, 0x52, 0x54, 0x55, 0x56, 0x57, 0x58, 0x59, 0x5A, 0x82, 0x83, 0x84,
      0xA0, 0xA1, 0xA2, 0xA3, 0xA4, 0x65, 0x66, 0xA7, 0xA8, 0x69, 0xAA, 0xAB, 0xAC, 0xAD] := rfl
  simp only [lookupOp_eq_none_iff, hlegal, List.mem_cons, List.not_mem_nil, or_false, not_or, IllegalTwoOperand]
  omega

/-! ## The length bits of an opcode byte -/

/-- The operand count as the number that bits 7:6 write (R80). -/
theorem operandCount_eq_bits (op : Byte) : operandCount op = 2 * (op.getLsbD 7).toNat + (op.getLsbD 6).toNat := by
  have := op.isLt
  simp only [operandCount, BitVec.getLsbD, Nat.toNat_testBit]
  omega

end Sys2Proof

/-! The statements of the family about the encoding, each settled from the laws above. -/

namespace Sys2Proof.Proofs

open Sys2Proof.Machine Sys2Proof.Claims

/-- Settles O5. -/
theorem decodeOfEncodeIsIdentity : Obligations.DecodeOfEncodeIsIdentity := fun _ _ rest hp hi =>
  decode_encode_append rest hp hi

/-- Settles O6: what operand extraction makes is well-formed, so that O5 holds of it. -/
theorem decodedInstructionReencodes : Obligations.DecodedInstructionReencodes := by
  intro p b bytes i rest hp h
  obtain ⟨hfetched, hlen, rfl⟩ := decode_cons_eq_ok_iff.1 h
  have hi : i.wellFormed = true := by
    obtain ⟨op, rfl⟩ := decodeFetched_eq_ok hfetched
    exact wellFormed_toInstr op _ _
  refine ⟨hi, ?_, decode_encode_append _ hp hi⟩
  rw [List.length_cons, List.length_drop, instrLength]
  omega

/-- Settles O9: the bytes in no row of the default map, under each unary encoding. -/
theorem illegalOpcodeBytesAreExactlyThose : Obligations.IllegalOpcodeBytesAreExactlyThose := by
  intro p b opA opB hp
  rw [decodeFetched_eq_undefined_iff (wf_of_defaultMap hp), opcodes_of_defaultMap hp]
  refine ⟨fun hu => ?_, fun hu => ?_⟩ <;> rw [hu]
  · exact lookupOp_twoOperand_eq_none_iff b
  · exact lookupOp_ls8OneOperand_eq_none_iff b

/-- Settles O7. -/
theorem defaultOpcodeMapsAreProper : Obligations.DefaultOpcodeMapsAreProper := fun _ => wf_of_defaultMap

/-- Settles O8: for each unary encoding, every row of its map is looked up. -/
theorem opcodeMapRows : Obligations.OpcodeMapRows := by
  intro p a b hp
  simp only [decodeFetched_of_defaultMap hp]
  cases p.unaryAluEncoding <;>
    refine ⟨rfl, rfl, rfl, rfl, rfl, rfl, rfl, rfl, rfl, rfl, rfl, rfl, rfl, rfl, rfl, rfl, rfl, rfl, rfl, rfl, rfl, rfl,
      rfl, rfl, rfl, rfl, rfl, rfl, rfl, rfl, rfl, ?_, ?_⟩
  case twoOperand.refine_1 => exact fun _ => ⟨rfl, rfl, rfl⟩
  case twoOperand.refine_2 => nofun
  case ls8OneOperand.refine_1 => nofun
  case ls8OneOperand.refine_2 => exact fun _ => ⟨rfl, rfl, rfl⟩

/-- Settles O10. -/
theorem workedEncodings : Obligations.WorkedEncodings :=
  ⟨rfl, rfl, rfl, rfl, rfl, rfl, rfl, rfl, rfl, rfl, rfl, rfl, rfl, rfl, rfl, rfl, rfl, rfl⟩

/-- Settles O11. -/
theorem lengthFromTopTwoBits : Obligations.LengthFromTopTwoBits := by
  intro op
  have hcount := operandCount_eq_bits op
  refine ⟨fun h7 h6 => ?_, fun h7 h6 => ?_, fun h7 h6 => ?_, fun h7 h6 => ?_, rfl, Nat.le_add_right 1 _⟩ <;>
    rw [h7, h6] at hcount
  · rw [instrLength, hcount]; rfl
  · rw [instrLength, hcount]; rfl
  · rw [instrLength, hcount]; rfl
  · exact decodeFetched_of_operandCount_eq_three hcount

/-- Settles O12: bits 7:6 give both the length and the legacy advance; the byte pushed is read back from the new top of the
stack. -/
theorem legacyAdvanceAmounts : Obligations.LegacyAdvanceAmounts := by
  refine ⟨fun op => ?_, fun s ra t ht => ?_⟩
  · rw [instrLength, operandCount_eq_bits, advanceAmount, legacyAdvance]
    cases op.getLsbD 7 <;> cases op.getLsbD 6 <;> decide
  · obtain rfl := exec_next_eq ht
    exact (push_byteAt s _ _).trans (if_pos rfl)

end Sys2Proof.Proofs

/-! Proofs about the instruction cycle (spec/40_instruction_cycle.md): fetch, the outcomes of a step, the run loop and the
output channel. First the laws they share. -/

namespace Sys2Proof.Machine

open Sys2Proof.Claims

variable (s : State)

/-! ## The fetched state (R100) -/

/-- The fetched state with another status, as a record: what a failed step leaves (R254). -/
theorem fetched_setStatus_eq (st : Status) :
    (fetched s).setStatus st =
      { s with ir := s.byteAt s.pc, opA := s.byteAt (s.pc + 1#8), opB := s.byteAt (s.pc + 2#8), mar := s.pc + 2#8,
               mdr := s.byteAt (s.pc + 2#8), loadOpen := false, status := st } := by
  apply State.ext <;> simp

/-- The instruction a core is about to execute depends on the PC, on memory and on the parameters only. -/
theorem nextInstr_congr {s t : State} (hpc : t.pc = s.pc) (hmem : t.mem = s.mem) (hparams : t.params = s.params) :
    nextInstr t = nextInstr s := by
  simp only [nextInstr, State.byteAt, hpc, hmem, hparams]

/-! ## Completed and failed steps (R105, R109) -/

@[simp] theorem settleHalt_out : (settleHalt s).out = s.out := by
  cases h : s.halted <;> simp [settleHalt, h]

/-- A step answers a next state when the status is not Running, or when its instruction completes. -/
theorem step_next_cases {s t : State} (h : step s = .next t) :
    (s.status ≠ .running ∧ t = s) ∨
    (s.status = .running ∧ ∃ i, nextInstr s = .ok i ∧ t = settleHalt (execNext (fetched s) i)) := by
  rcases step_cases s with ⟨hrun, hs⟩ | ⟨-, e, -, hs⟩ | ⟨hrun, i, hi, hs | ⟨hs, -⟩ | ⟨hs, -⟩⟩ <;>
    rw [hs] at h <;> cases h
  · exact .inl ⟨hrun, rfl⟩
  · exact .inr ⟨hrun, i, hi, rfl⟩

/-- An instruction that completes out of a Running state ends Halted exactly when it is HLT (R109, R131). -/
theorem settleHalt_execNext_status {s : State} (hrun : s.status = .running) (hhalted : s.halted = false) (i : Instr) :
    (settleHalt (execNext (fetched s) i)).status = if i = .hlt then .halted else .running := by
  simp only [settleHalt_eq, execNext_halted, fetched_halted, hhalted, Bool.or_false, decide_eq_true_eq]
  split_ifs
  · rfl
  · simpa using hrun

/-- Why a step ends in the failed status `st` (R250, R256, R110): an undefined byte, a zero divisor, or a refused INT. -/
def FailureCause (s : State) (st : Status) : Prop :=
  (st = .faulted .undefinedOpcode ∧ ∃ e, nextInstr s = .error e) ∨
  (st = .faulted .divisionByZero ∧
    ∃ ra rb, s.reg rb = 0x00#8 ∧ (nextInstr s = .ok (.div ra rb) ∨ nextInstr s = .ok (.mod ra rb))) ∨
  (st = .refused .int ∧ s.params.intMode = .refuse ∧ ∃ ra, nextInstr s = .ok (.int ra))

/-- A step that answers no next state leaves the fetched state with a failed status, and the status has a cause. -/
theorem resultState_failed_step {s t : State} (h : resultState (step s) = some t) (hfail : ∀ u, step s ≠ .next u) :
    s.status = .running ∧ ∃ st, t = (fetched s).setStatus st ∧ FailureCause s st := by
  rcases step_cases s with ⟨-, hs⟩ | ⟨hrun, e, he, hs⟩ |
    ⟨hrun, i, hi, hs | ⟨hs, ra, rb, hdiv, hzero⟩ | ⟨hs, ⟨ra, rfl⟩, hmode⟩⟩
  · exact absurd hs (hfail _)
  · rw [hs] at h
    cases h
    exact ⟨hrun, _, rfl, .inl ⟨rfl, e, he⟩⟩
  · exact absurd hs (hfail _)
  · rw [hs] at h
    cases h
    have hcause : nextInstr s = .ok (.div ra rb) ∨ nextInstr s = .ok (.mod ra rb) := by
      rw [hi]; exact hdiv.imp (congrArg _) (congrArg _)
    exact ⟨hrun, _, rfl, .inr (.inl ⟨rfl, ra, rb, hzero, hcause⟩)⟩
  · rw [hs] at h
    cases h
    exact ⟨hrun, _, rfl, .inr (.inr ⟨rfl, hmode, ra, hi⟩)⟩

/-! ## The output channel (R113) -/

/-- The events an instruction emits: one of PRN, one of PRA, none of the others. -/
def emitted (s : State) : Instr → List Event
  | .prn ra => [.dec (s.reg ra)]
  | .pra ra => [.chr (s.reg ra)]
  | _ => []

theorem emitted_length_le_one (i : Instr) : (emitted s i).length ≤ 1 := by
  cases i <;> simp [emitted]

theorem execNext_out (i : Instr) : (execNext s i).out = s.out ++ emitted s i := by
  cases i
  case jeq | jne | jgt | jlt | jle | jge => simp only [execNext, emitted, List.append_nil]; split <;> rfl
  all_goals simp [execNext, emitted]

/-! ## The run loop and chains of steps (R112) -/

/-- From a state that is not Running the only chain of steps is the empty one. -/
theorem stepsTo_iff_of_not_running {s : State} (h : s.status ≠ .running) (n : Nat) (t : State) :
    StepsTo n s t ↔ n = 0 ∧ t = s := by
  cases n <;> simp [StepsTo, h]

/-- From a Running state a chain of steps goes on from the state its first step leaves. -/
theorem stepsTo_succ_iff_of_running {s u : State} (h : s.status = .running) (hu : resultState (step s) = some u) (n : Nat)
    (t : State) : StepsTo (n + 1) s t ↔ StepsTo n u t := by
  simp [StepsTo, h, hu]

theorem run_eq_some_iff_of_not_running {s : State} (h : s.status ≠ .running) (n : Nat) (t : State) :
    run n s = some t ↔ t.status ≠ .running ∧ ∃ k, k ≤ n ∧ StepsTo k s t := by
  simp only [run_of_not_running h, stepsTo_iff_of_not_running h, Option.some.injEq]
  constructor
  · rintro rfl
    exact ⟨h, 0, Nat.zero_le n, rfl, rfl⟩
  · rintro ⟨-, k, -, -, rfl⟩
    rfl

/-- A run ends in the first state of a chain of steps that is not Running. -/
theorem run_eq_some_iff {n : Nat} {s t : State} :
    run n s = some t ↔ t.status ≠ .running ∧ ∃ k, k ≤ n ∧ StepsTo k s t := by
  induction n generalizing s with
  | zero =>
    by_cases hrun : s.status = .running
    · rw [run_zero_of_running hrun]
      refine ⟨nofun, ?_⟩
      rintro ⟨ht, k, hk, hchain⟩
      obtain rfl := Nat.le_zero.1 hk
      obtain rfl : t = s := hchain
      exact absurd hrun ht
    · exact run_eq_some_iff_of_not_running hrun 0 t
  | succ n ih =>
    by_cases hrun : s.status = .running
    · obtain ⟨u, hu⟩ := resultState_step s
      have hsucc := fun k => stepsTo_succ_iff_of_running hrun hu k t
      rw [run_succ_of_running hrun hu, ih]
      refine and_congr_right fun ht => ⟨?_, ?_⟩
      · rintro ⟨k, hk, hchain⟩
        exact ⟨k + 1, Nat.succ_le_succ hk, (hsucc k).2 hchain⟩
      · rintro ⟨_ | k, hk, hchain⟩
        · obtain rfl : t = s := hchain
          exact absurd hrun ht
        · exact ⟨k, Nat.le_of_succ_le_succ hk, (hsucc k).1 hchain⟩
    · exact run_eq_some_iff_of_not_running hrun (n + 1) t

/-- A run has not ended exactly when all its steps lead through Running states. -/
theorem run_eq_none_iff {n : Nat} {s : State} : run n s = none ↔ ∃ t, StepsTo n s t ∧ t.status = .running := by
  induction n generalizing s with
  | zero => simp [run, StepsTo]
  | succ n ih =>
    by_cases hrun : s.status = .running
    · obtain ⟨u, hu⟩ := resultState_step s
      simp only [run_succ_of_running hrun hu, stepsTo_succ_iff_of_running hrun hu, ih]
    · simp [run_of_not_running hrun, stepsTo_iff_of_not_running hrun]

/-! ## Runs that never end (R112) -/

/-- A run never ends from a state of a set that every step leads back into, all of whose states are Running. -/
theorem run_eq_none_of_invariant {P : State → Prop} (hrun : ∀ s, P s → s.status = .running)
    (hstep : ∀ s, P s → ∃ t, step s = .next t ∧ P t) (n : Nat) {s : State} (hs : P s) : run n s = none := by
  induction n generalizing s with
  | zero => exact run_zero_of_running (hrun s hs)
  | succ n ih =>
    obtain ⟨t, ht, hPt⟩ := hstep s hs
    rw [run_succ_of_running (u := t) (hrun s hs) (by rw [ht]; rfl)]
    exact ih hPt

/-- A Running core, not halted, whose bytes at the PC decode to `i`. -/
structure AboutToRun (i : Instr) (s : State) : Prop where
  running : s.status = .running
  not_halted : s.halted = false
  decodes : nextInstr s = .ok i

/-- An instruction that completes, and is not HLT, leaves the core about to run the instruction at its new PC. -/
theorem AboutToRun.step_next {i j : Instr} {s : State} (h : AboutToRun i s) (hhlt : i ≠ .hlt)
    (hexec : exec i (fetched s) = .next (execNext (fetched s) i)) (hj : nextInstr (execNext (fetched s) i) = .ok j) :
    step s = .next (execNext (fetched s) i) ∧ AboutToRun j (execNext (fetched s) i) := by
  have hhalted : (execNext (fetched s) i).halted = false := by simp [execNext_halted, hhlt, h.not_halted]
  refine ⟨?_, by simpa using h.running, hhalted, hj⟩
  rw [step_running_ok h.running h.decodes, hexec]
  exact congrArg _ (settleHalt_of_not_halted hhalted)

/-- A JMP to its own address. -/
def JumpsToItself (ra : Nat) (s : State) : Prop := AboutToRun (.jmp ra) s ∧ s.reg ra = s.pc

theorem JumpsToItself.step {ra : Nat} {s : State} (h : JumpsToItself ra s) :
    ∃ t, step s = .next t ∧ JumpsToItself ra t := by
  obtain ⟨habout, htarget⟩ := h
  have hsame : nextInstr (execNext (fetched s) (.jmp ra)) = nextInstr s := nextInstr_congr htarget rfl rfl
  obtain ⟨hstep, habout'⟩ := habout.step_next nofun rfl (hsame.trans habout.decodes)
  exact ⟨_, hstep, habout', rfl⟩

/-- A NOP of opcode 0x00 under the legacy advance, which adds 0 to the PC (R82, R130). -/
def LegacyNop (s : State) : Prop :=
  AboutToRun .nop s ∧ s.params.advanceMode = .legacy ∧ s.byteAt s.pc = 0x00#8

theorem LegacyNop.step {s : State} (h : LegacyNop s) : ∃ t, step s = .next t ∧ LegacyNop t := by
  obtain ⟨habout, hmode, hbyte⟩ := h
  have hpc : (execNext (fetched s) .nop).pc = s.pc := by
    simp [execNext, hmode, hbyte, advanceAmount, legacyAdvance, trunc8]
  have hsame : nextInstr (execNext (fetched s) .nop) = nextInstr s := nextInstr_congr hpc rfl rfl
  obtain ⟨hstep, habout'⟩ := habout.step_next nofun rfl (hsame.trans habout.decodes)
  exact ⟨_, hstep, habout', hmode, by rw [hpc]; exact hbyte⟩

/-- NOPs all around memory. -/
def NopsEverywhere (s : State) : Prop :=
  AboutToRun .nop s ∧
    ∀ a : Byte, decodeFetched s.params (s.byteAt a) (s.byteAt (a + 1#8)) (s.byteAt (a + 2#8)) = .ok .nop

theorem NopsEverywhere.step {s : State} (h : NopsEverywhere s) : ∃ t, step s = .next t ∧ NopsEverywhere t := by
  obtain ⟨habout, hall⟩ := h
  have hnext : nextInstr (execNext (fetched s) .nop) = .ok .nop := by simpa [nextInstr, execNext] using hall _
  obtain ⟨hstep, habout'⟩ := habout.step_next nofun rfl hnext
  exact ⟨_, hstep, habout', by simpa [execNext] using hall⟩

/-! ## The text of an event (R114) -/

/-- `ds` is the decimal numeral of `n`: its digits from the highest, none of them a leading zero. -/
structure IsNumeral (ds : List Nat) (n : Nat) : Prop where
  digit_lt : ∀ d ∈ ds, d < 10
  value : ds.foldl (fun m d => 10 * m + d) 0 = n
  ne_nil : ds ≠ []
  no_leading_zero : ds.head? = some 0 → ds = [0]

/-- `decimal` writes the numeral of its byte, digit by digit. -/
theorem decimal_eq_map_digitChar (v : Byte) : ∃ ds, decimal v = ds.map digitChar ∧ IsNumeral ds v.toNat := by
  have hv : v.toNat < 256 := v.isLt
  simp only [decimal]
  split_ifs with h10 h100
  · exact ⟨[v.toNat], rfl, by simp [h10], by simp, by simp, by simp⟩
  · exact ⟨[v.toNat / 10, v.toNat % 10], rfl, by simp; omega, by simp; omega, by simp, by simp; omega⟩
  · exact ⟨[v.toNat / 100, v.toNat / 10 % 10, v.toNat % 10], rfl, by simp; omega, by simp; omega, by simp,
      by simp; omega⟩

/-- A number below 256 is a character code (R114: U+0000 to U+00FF). -/
theorem toNat_charOfNat {n : Nat} (h : n < 256) : (Char.ofNat n).toNat = n := by
  rw [Char.toNat_ofNat, if_pos (.inl (by omega))]

theorem digitChar_toNat {d : Nat} (h : d < 10) : (digitChar d).toNat = 48 + d := toNat_charOfNat (by omega)

theorem digitChar_mem_digits {d : Nat} (h : d < 10) : '0' ≤ digitChar d ∧ digitChar d ≤ '9' := by
  interval_cases d <;> decide

theorem digitChar_eq_zero {d : Nat} (h : d < 10) (hzero : digitChar d = '0') : d = 0 := by
  have hcode := digitChar_toNat h
  rw [hzero] at hcode
  exact (Nat.add_left_cancel hcode).symm

/-- The value of a numeral is read from its digits. -/
theorem numeralValue_map_digitChar {ds : List Nat} (h : ∀ d ∈ ds, d < 10) :
    numeralValue (ds.map digitChar) = ds.foldl (fun m d => 10 * m + d) 0 := by
  rw [numeralValue, List.foldl_map]
  exact List.foldl_ext _ _ _ fun m d hd => by rw [digitChar_toNat (h d hd), Nat.add_sub_cancel_left]

end Sys2Proof.Machine

/-! The statements of the family about the instruction cycle, each settled from the laws above. -/

namespace Sys2Proof.Proofs

open Sys2Proof.Machine Sys2Proof.Claims

/-- Settles O21, by induction on the number of steps. -/
theorem stoppedCoreNeverMoves : Obligations.StoppedCoreNeverMoves := by
  intro s k hs
  have hstep : Sys2Proof.core.step s = .next s := step_not_running hs
  induction k with
  | zero => rfl
  | succ k ih => rw [Host.Core.run, hstep]; exact ih

/-- Settles O22, for each way a Running state can step. -/
theorem outcomesOfAStep : Obligations.OutcomesOfAStep := by
  intro s hrun hhalted
  rcases step_cases s with ⟨hstop, -⟩ | ⟨-, e, -, hs⟩ | ⟨-, i, hi, hs | ⟨hs, -⟩ | ⟨hs, -⟩⟩
  · exact absurd hrun hstop
  · rw [hs]
    exact ⟨by simp, fun b t ht => by cases ht; rfl, by simp, by simp⟩
  · rw [hs]
    refine ⟨fun t ht => ?_, by simp, by simp, by simp⟩
    obtain rfl := Host.Outcome.next.inj ht
    have hstatus := settleHalt_execNext_status hrun hhalted i
    by_cases hhlt : i = .hlt
    · subst hhlt
      exact .inr ⟨hstatus, hi⟩
    · rw [if_neg hhlt] at hstatus
      refine .inl ⟨hstatus, by simp [execNext_halted, hhalted, hhlt], ?_⟩
      exact fun hdec => hhlt (Except.ok.inj (hi.symm.trans hdec))
  · rw [hs]
    exact ⟨by simp, by simp, fun t ht => by cases ht; rfl, by simp⟩
  · rw [hs]
    exact ⟨by simp, by simp, by simp, fun r hr => by cases hr; exact ⟨_, rfl, rfl⟩⟩

/-- Settles O23: a failed step leaves the fetched state with a failed status. -/
theorem failedStepWritesNothing : Obligations.FailedStepWritesNothing := by
  intro s t ht hfail
  obtain ⟨hrun, st, rfl, hcause⟩ := resultState_failed_step ht hfail
  exact ⟨hrun, fetched_reg s, fetched_byteAt s, fetched_setStatus_eq s st, hcause⟩

/-- Settles O24. -/
theorem runEndsWhenStatusLeavesRunning : Obligations.RunEndsWhenStatusLeavesRunning := by
  refine ⟨fun _ _ _ => run_eq_some_iff, fun _ _ => run_eq_none_iff, fun n s t ht k => ?_⟩
  obtain ⟨hstop, m, hm, hchain⟩ := run_eq_some_iff.1 ht
  exact run_eq_some_iff.2 ⟨hstop, m, Nat.le_add_right_of_le hm, hchain⟩

/-- Settles O25: each of the three loops is a set of Running states that a step does not leave. -/
theorem selfLoopsNeverEnd : Obligations.SelfLoopsNeverEnd := by
  rintro s hrun hhalted (⟨ra, hi, htarget⟩ | ⟨hi, hmode, hbyte⟩ | hall) n
  · have hloop : JumpsToItself ra s := ⟨⟨hrun, hhalted, hi⟩, htarget⟩
    exact run_eq_none_of_invariant (fun _ h => h.1.running) (fun _ => JumpsToItself.step) n hloop
  · have hloop : LegacyNop s := ⟨⟨hrun, hhalted, hi⟩, hmode, hbyte⟩
    exact run_eq_none_of_invariant (fun _ h => h.1.running) (fun _ => LegacyNop.step) n hloop
  · have hloop : NopsEverywhere s := ⟨⟨hrun, hhalted, hall s.pc⟩, hall⟩
    exact run_eq_none_of_invariant (fun _ h => h.1.running) (fun _ => NopsEverywhere.step) n hloop

/-- Settles O56: a step that completes emits what its instruction emits, any other step nothing. -/
theorem outputOnlyGrows : Obligations.OutputOnlyGrows := by
  refine ⟨fun s t ht => ?step, fun i s t ht => ?exec⟩
  case step =>
    by_cases hnext : ∃ u, step s = .next u
    · obtain ⟨u, hu⟩ := hnext
      rw [hu] at ht
      obtain rfl : u = t := Option.some.inj ht
      obtain ⟨-, rfl⟩ | ⟨-, i, -, rfl⟩ := step_next_cases hu
      · exact ⟨[], by simp⟩
      · exact ⟨emitted (fetched s) i, by simp [execNext_out], emitted_length_le_one _ i, fun h => absurd hu (h _)⟩
    · obtain ⟨-, st, rfl, -⟩ := resultState_failed_step ht (not_exists.1 hnext)
      exact ⟨[], by simp⟩
  case exec =>
    rw [exec_next_eq ht, execNext_out]
    cases i
    case prn ra => exact .inl ⟨ra, rfl, rfl⟩
    case pra ra => exact .inr (.inl ⟨ra, rfl, rfl⟩)
    all_goals exact .inr (.inr ⟨fun _ => ⟨nofun, nofun⟩, List.append_nil _⟩)

/-- Settles O18. -/
theorem fetchReadsThreeBytes : Obligations.FetchReadsThreeBytes := fun s =>
  ⟨fetch_ir s, fetch_opA s, fetch_opB s, fetch_mar s, fetch_mdr s, fetch_reg s, fetch_byteAt s, rfl⟩

/-- Settles O19. -/
theorem stepRunsTheDecodedInstruction : Obligations.StepRunsTheDecodedInstruction := by
  intro s i hrun hi
  have hstep : step s = afterExecute (exec i (fetched s)) := step_running_ok hrun hi
  rw [hstep]
  exact ⟨rfl, fetched_pc s, fun t ht => by rw [ht]; rfl, fun f hf => by rw [hf]; rfl, fun r hr => by rw [hr]; rfl⟩

/-- Settles O20. -/
theorem undefinedOpcodeFaults : Obligations.UndefinedOpcodeFaults := by
  intro s e hrun he
  rw [step_running_error hrun he, fetched_setStatus_eq]

/-- Settles O28: the text of a number is its numeral, digit by digit. -/
theorem eventsRenderAsText : Obligations.EventsRenderAsText := by
  refine fun p v => ⟨⟨decimal v, rfl, ?_⟩, Char.ofNat v.toNat, rfl, toNat_charOfNat v.isLt⟩
  obtain ⟨ds, hds, hnum⟩ := decimal_eq_map_digitChar v
  rw [hds]
  refine ⟨(numeralValue_map_digitChar hnum.digit_lt).trans hnum.value, ?digits, by simpa using hnum.ne_nil, ?zero⟩
  case digits =>
    intro c hc
    obtain ⟨d, hd, rfl⟩ := List.mem_map.1 hc
    exact digitChar_mem_digits (hnum.digit_lt d hd)
  case zero =>
    intro hhead
    rw [List.head?_map, Option.map_eq_some_iff] at hhead
    obtain ⟨d, hd, hzero⟩ := hhead
    obtain rfl := digitChar_eq_zero (hnum.digit_lt d (List.mem_of_mem_head? hd)) hzero
    rw [hnum.no_leading_zero hd]
    rfl

end Sys2Proof.Proofs

/-! Proofs about NOP and HLT (spec/41_nop_hlt.md): the automatic advance, the advance of an opcode without operands, and the
step that halts. -/

namespace Sys2Proof.Machine

open Sys2Proof.Claims

/-- The automatic advance, modulo 256 (R108): what a handler that did not write the PC leaves in it. -/
theorem autoAdvanced_of_pc_eq {s t : State} (h : t.pc = s.advance.pc) : AutoAdvanced s t := by
  rw [AutoAdvanced, h]
  simp [trunc8]

/-- An opcode without operands has length 1 and no legacy advance: bits 7:6 are both 0 (R81, R82). -/
theorem advance_pc_of_no_operands {s : State} (h : operandCount s.ir = 0) :
    (s.params.advanceMode = .canonical → s.advance.pc = s.pc + 1#8) ∧
    (s.params.advanceMode = .legacy → s.advance.pc = s.pc) := by
  refine ⟨fun hmode => ?canonical, fun hmode => ?legacy⟩ <;> rw [advance_pc, hmode, advanceAmount]
  case canonical => rw [instrLength, h]; rfl
  case legacy =>
    rw [operandCount_eq_bits] at h
    have h7 : s.ir.getLsbD 7 = false := by rw [← Bool.toNat_eq_zero]; omega
    have h6 : s.ir.getLsbD 6 = false := by rw [← Bool.toNat_eq_zero]; omega
    rw [legacyAdvance, h7, h6]
    exact BitVec.add_zero s.pc

/-- The step of a Running core about to execute HLT: `halted` is set and the status becomes Halted (R104, R131). -/
theorem step_hlt {s : State} (hrun : s.status = .running) (hi : nextInstr s = .ok .hlt) :
    step s = .next (((fetched s).setHalted true).advance.setStatus .halted) :=
  step_running_ok hrun hi

end Sys2Proof.Machine

/-! The statements of the family about NOP and HLT, each settled from the laws above. -/

namespace Sys2Proof.Proofs

open Sys2Proof.Machine Sys2Proof.Claims

/-- Settles O29: NOP is the automatic advance and nothing else. -/
theorem nopOnlyAdvances : Obligations.NopOnlyAdvances := by
  refine fun s => ⟨s.advance, rfl, autoAdvanced_of_pc_eq rfl, advance_reg s, advance_byteAt s, rfl, fun hir => ?_⟩
  exact advance_pc_of_no_operands (by rw [hir]; rfl)

/-- Settles O30: HLT is the automatic advance with `halted` set; its step leaves a state that is not Running, out of which
no step leads (R111). -/
theorem hltHaltsTheCore : Obligations.HltHaltsTheCore := by
  refine ⟨fun p hp => ⟨?decode, rfl⟩, fun s => ?exec, fun s hrun hi => ?step⟩
  case decode =>
    refine decode_cons_eq_ok_iff.2 ⟨?_, by decide, rfl⟩
    rw [decodeFetched_of_defaultMap hp]
    cases p.unaryAluEncoding <;> rfl
  case exec =>
    refine ⟨(s.setHalted true).advance, rfl, autoAdvanced_of_pc_eq rfl, fun _ => rfl, fun _ => rfl, rfl, fun hir => ?_⟩
    exact advance_pc_of_no_operands (s := s) (by rw [hir]; rfl)
  case step =>
    refine ⟨_, step_hlt hrun hi, rfl, rfl, ?_, ?_, rfl, rfl, step_not_running nofun⟩
    · simp [RegsSame]
    · simp [BytesSame]

end Sys2Proof.Proofs

/-! The statements of the family about PUSH and POP (spec/42_stack.md). Each instruction is its stack primitive (R60, R61)
with the automatic advance; what the primitive does to the registers, to memory and to the latches is O16. -/

namespace Sys2Proof.Proofs

open Sys2Proof.Machine Sys2Proof.Claims

/-- Settles O31: PUSH is push of the register's value before the decrement, then the automatic advance, which keeps every
register, byte and latch. -/
theorem pushStoresBelowStackPointer : Obligations.PushStoresBelowStackPointer := by
  intro s ra
  obtain ⟨hsp, hcell, hbytes, hregs, -⟩ := pushAndPopPrimitives.1 s (s.reg ra)
  exact ⟨(push s (s.reg ra)).advance, rfl, hsp, hcell, hbytes, hregs, rfl, push_mar s (s.reg ra), rfl,
    autoAdvanced_of_pc_eq rfl, rfl⟩

/-- Settles O32: POP is pop, then the write of the popped byte, then the automatic advance. The register write comes after
the increment of SP, so it leaves the incremented SP in place only where the destination is another register. -/
theorem popLoadsAndClears : Obligations.PopLoadsAndClears := by
  intro s ra
  obtain ⟨-, hsp, hcell, hbytes, hregs, -⟩ := pushAndPopPrimitives.2 s
  refine ⟨((pop s).2.setReg ra (s.byteAt s.sp)).advance, rfl, reg_setReg_same _ ra _, fun hra => ?sp, hcell, hbytes,
    fun j h7 hj => ?other, rfl, rfl, rfl, autoAdvanced_of_pc_eq rfl, rfl⟩
  case sp => exact (reg_setReg_other _ _ hra.symm).trans hsp
  case other => exact (reg_setReg_other _ _ hj).trans (hregs j h7)

end Sys2Proof.Proofs

/-! Proofs about PRN and PRA (spec/43_output.md): each emits one event and advances, so what an event leaves unchanged is said
once, for any event. -/

namespace Sys2Proof.Machine

open Sys2Proof.Claims

/-- An instruction that only emits `e` completes: it appends `e` to the output channel, auto-advances, and leaves every other
field as it was (R113). -/
theorem exec_of_emits {i : Instr} {s : State} {e : Event} (h : exec i s = finish (emit s e)) :
    ∃ t, exec i s = .next t ∧ t.out = s.out ++ [e] ∧ AutoAdvanced s t ∧ RegsSame s t ∧ BytesSame s t ∧ t.fl = s.fl ∧
      t = { s with out := t.out, pc := t.pc } :=
  ⟨(emit s e).advance, h, emit_out s e, autoAdvanced_of_pc_eq rfl, emit_reg s e, emit_byteAt s e, rfl, rfl⟩

end Sys2Proof.Machine

/-! The statements of the family about PRN and PRA, each settled from the law above. -/

namespace Sys2Proof.Proofs

open Sys2Proof.Machine Sys2Proof.Claims

/-- Settles O33: the row of PRN in the opcode map (O8), its one event, and the numeral that renders it (O28). -/
theorem prnEmitsDecimal : Obligations.PrnEmitsDecimal := by
  refine ⟨fun p a hp => ⟨?decode, rfl⟩, fun s ra => exec_of_emits rfl, fun p => ⟨rfl, rfl, fun v => ?numeral⟩⟩
  case decode =>
    obtain ⟨-, -, -, -, -, -, hprn, -⟩ := opcodeMapRows p a 0#8 hp
    exact decode_cons_eq_ok_iff.2 ⟨hprn, Nat.le_refl 1, rfl⟩
  case numeral =>
    obtain ⟨⟨digits, htext, hvalue, hdigits, -⟩, -⟩ := eventsRenderAsText p v
    exact ⟨digits, htext, hvalue, hdigits⟩

/-- Settles O34: PRA emits its one event, whatever the register's value. -/
theorem praEmitsCharacter : Obligations.PraEmitsCharacter := fun _ _ => exec_of_emits rfl

end Sys2Proof.Proofs

/-! Proofs about LDI, LD and ST (spec/44_load_store.md): what an instruction that only writes one register leaves unchanged
is said once, for any value. -/

namespace Sys2Proof.Machine

open Sys2Proof.Claims

/-- An instruction that only writes `v` to register `dst` completes: it auto-advances and leaves every other register, FL,
memory, the latches and every other field as they were. -/
theorem writesRegister_of_exec {i : Instr} {s : State} {dst : Nat} {v : Byte} (h : exec i s = finish (s.setReg dst v)) :
    WritesRegister i dst s v.toNat :=
  ⟨(s.setReg dst v).advance, h, congrArg BitVec.toNat (reg_setReg_same s dst v), fun _ => reg_setReg_other s v, rfl,
    setReg_byteAt s dst v, autoAdvanced_of_pc_eq rfl, rfl⟩

end Sys2Proof.Machine

/-! The statements of the family about LDI, LD and ST: with the automatic advance, LDI is a register write, LD a memory read
(R53) and a register write, ST a memory write (R54). -/

namespace Sys2Proof.Proofs

open Sys2Proof.Machine Sys2Proof.Claims

/-- Settles O35: the row of LDI in the opcode map (O8), and its one register write. -/
theorem ldiLoadsImmediate : Obligations.LdiLoadsImmediate := by
  refine ⟨fun p a b hp => ⟨?decode, rfl⟩, fun s ra imm => writesRegister_of_exec rfl⟩
  case decode =>
    obtain ⟨-, -, -, -, -, -, -, -, -, -, -, -, -, -, -, -, -, hldi, -⟩ := opcodeMapRows p a b hp
    exact decode_cons_eq_ok_iff.2 ⟨hldi, Nat.le_refl 2, rfl⟩

/-- Settles O36: LD is a memory read (O15) at the address in `rb` before the write, then the write of the byte read to `ra`,
which keeps memory and the latches of the read. -/
theorem ldLoadsFromAddressRegister : Obligations.LdLoadsFromAddressRegister := by
  intro s ra rb
  obtain ⟨-, hmar, hmdr, hbytes, -⟩ := latchProtocol.1 s (s.reg rb)
  exact ⟨((memRead s (s.reg rb)).2.setReg ra (s.byteAt (s.reg rb))).advance, rfl, reg_setReg_same _ ra _,
    fun _ => reg_setReg_other _ _, hbytes, rfl, hmar, hmdr, autoAdvanced_of_pc_eq rfl, rfl⟩

/-- Settles O37: ST is a memory write (O15) of register `rb` at the address in `ra`, then the automatic advance, which keeps
every byte and latch. -/
theorem stStoresToAddressRegister : Obligations.StStoresToAddressRegister := by
  intro s ra rb
  obtain ⟨hmar, hmdr, hcell, hbytes, -⟩ := latchProtocol.2 s (s.reg ra) (s.reg rb)
  exact ⟨(memWrite s (s.reg ra) (s.reg rb)).advance, rfl, hcell, hbytes, fun _ => rfl, rfl, hmar, hmdr,
    autoAdvanced_of_pc_eq rfl, rfl⟩

end Sys2Proof.Proofs

/-! Proofs about CALL, RET, INT and IRET (spec/45_call_interrupt.md): the two answers of INT, and the frame IRET pops. -/

namespace Sys2Proof.Machine

/-- INT under `stub_nop` is the automatic advance (R180). -/
theorem exec_int_of_stubNop {s : State} (h : s.params.intMode = .stubNop) (ra : Nat) :
    exec (.int ra) s = .next s.advance := by
  simp [exec_eq, dividesByZero, refusesInt, h, execNext]

/-- INT under `refuse` writes the status and nothing else (R110, R180). -/
theorem exec_int_of_refuse {s : State} (h : s.params.intMode = .refuse) (ra : Nat) :
    exec (.int ra) s = .refused (.intWithoutContract (s.setStatus (.refused .int))) := by
  simp [exec_eq, dividesByZero, refusesInt, h, refuseInt_eq]

variable (s : State)

/-! ## The frame of IRET (R182) -/

/-- IRET as the pop of the PC after the other eight, with `ie` set. -/
theorem execNext_iret :
    execNext s .iret =
      ((pop (popFl (popRegs s))).2.setIe true).setPc ((popFl (popRegs s)).byteAt ((popFl (popRegs s)).reg 7)) := rfl

/-- Registers 0 to 6 are popped in falling order, so register `j` comes from offset `6 - j` of the frame; the later pops of FL
and PC do not touch it. -/
theorem execNext_iret_reg {j : Nat} (hj : j < 7) :
    (execNext s .iret).reg j = s.byteAt (s.reg 7 + BitVec.ofNat 8 (6 - j)) := by
  obtain ⟨-, -, -, hregs⟩ := popFl_popRegs_spec s
  rw [execNext_iret, setPc_reg, setIe_reg, pop_reg, if_neg (by omega), hregs j hj]

/-- The byte popped last is the one at offset 8 of the frame: the eight pops before it cleared only the cells below. -/
theorem execNext_iret_pc : (execNext s .iret).pc = s.byteAt (s.reg 7 + 8#8) := by
  obtain ⟨hsp, -, hbytes, -⟩ := popFl_popRegs_spec s
  rw [execNext_iret, setPc_pc, hsp, hbytes, toNat_offset (s.reg 7) 8 (by decide), if_neg (by decide)]

theorem execNext_iret_sp : (execNext s .iret).reg 7 = s.reg 7 + 9#8 := by
  obtain ⟨hsp, -⟩ := popFl_popRegs_spec s
  rw [execNext_iret, setPc_reg, setIe_reg, pop_sp, hsp, BitVec.add_assoc]
  rfl

/-- The last access is the write that clears the cell of the PC (R55). -/
theorem execNext_iret_mar : (execNext s .iret).mar = s.reg 7 + 8#8 := by
  obtain ⟨hsp, -⟩ := popFl_popRegs_spec s
  rw [execNext_iret, setPc_mar, setIe_mar, pop_mar, hsp]

theorem execNext_iret_mdr : (execNext s .iret).mdr = 0x00#8 := by
  rw [execNext_iret, setPc_mdr, setIe_mdr, pop_mdr]

end Sys2Proof.Machine

/-! The statements of the family about CALL, RET, INT and IRET. CALL and RET are the stack primitives (O16) with an explicit
write of the PC. -/

namespace Sys2Proof.Proofs

open Sys2Proof.Machine Sys2Proof.Claims

/-- Settles O39: CALL is push of the return address, then the jump to the register as the push left it; the push writes SP and
no other register. -/
theorem callPushesReturnAddress : Obligations.CallPushesReturnAddress := by
  intro s ra
  obtain ⟨hsp, hcell, hbytes, hregs, -⟩ := pushAndPopPrimitives.1 s (s.pc + 2#8)
  exact ⟨execNext s (.call ra), rfl, hsp, hcell, hbytes, hregs, push_reg s (s.pc + 2#8) ra, rfl,
    push_mar s (s.pc + 2#8), rfl, rfl⟩

/-- Settles O40: RET is pop, then the jump to the byte popped. -/
theorem retPopsProgramCounter : Obligations.RetPopsProgramCounter := by
  intro s
  obtain ⟨hval, hsp, hcell, hbytes, hregs, -⟩ := pushAndPopPrimitives.2 s
  exact ⟨execNext s .ret, rfl, hval, hsp, hcell, hbytes, hregs, rfl, rfl, rfl, rfl⟩

/-- Settles O41: RET pops (O40) the byte CALL pushed (O39), and its increment of SP undoes CALL's decrement. -/
theorem retReturnsAfterCall : Obligations.RetReturnsAfterCall := by
  rintro s ra u ⟨t, ht, husp, hucell⟩
  obtain ⟨t', ht', hsp, hcell, -⟩ := callPushesReturnAddress s ra
  obtain rfl : t' = t := Host.Outcome.next.inj (ht'.symm.trans ht)
  obtain ⟨v, hv, hpc, hvsp, -, hbytes, hregs, -⟩ := retPopsProgramCounter u
  refine ⟨v, hv, ?pc, ?sp, hregs, hbytes⟩
  case pc => rw [hpc, hucell, hsp, hcell, BitVec.toNat_add]; rfl
  case sp => rw [hvsp, husp, hsp, BitVec.sub_add_cancel]

/-- Settles O42, for each setting of INT_MODE. -/
theorem intFollowsIntMode : Obligations.IntFollowsIntMode := by
  refine fun s ra => ⟨fun h => ?stubNop, fun h => exec_int_of_refuse h ra⟩
  case stubNop =>
    exact ⟨s.advance, exec_int_of_stubNop h ra, autoAdvanced_of_pc_eq rfl, advance_reg s, advance_byteAt s, rfl⟩

/-- Settles O43: the nine bytes of the frame one by one, then SP, `ie`, the latches and the cleared cells. Of the other
fields, HLT alone writes `halted`, PRN and PRA alone the output channel, and no handler the rest. -/
theorem iretRestoresFrame : Obligations.IretRestoresFrame := by
  intro s
  have hreg {j : Nat} (hj : j < 7) := execNext_iret_reg s hj
  refine ⟨execNext s .iret, rfl, ?r6, hreg (j := 5) (by decide), hreg (j := 4) (by decide), hreg (j := 3) (by decide),
    hreg (j := 2) (by decide), hreg (j := 1) (by decide), hreg (j := 0) (by decide), execNext_fl s .iret,
    execNext_iret_pc s, execNext_iret_sp s, execNext_ie s .iret, execNext_iret_mar s, execNext_iret_mdr s,
    execNext_iret_byteAt s, ?frame⟩
  case r6 => simpa using hreg (j := 6) (by decide)
  case frame => apply State.ext <;> simp [execNext_halted, execNext_out, emitted]

end Sys2Proof.Proofs

/-! Proofs about the jumps (spec/46_jumps.md): each condition of R191 as the bits of FL it reads, and the one pseudocode all
conditional jumps share. -/

namespace Sys2Proof.Machine

variable (fl : Byte)

/-! ## The conditions, bit by bit (R27, R191) -/

theorem condEq_iff : condEq fl = true ↔ fl.getLsbD 0 = true := Iff.rfl
theorem condNe_iff : condNe fl = true ↔ fl.getLsbD 0 = false := Iff.of_eq (Bool.not_eq_true' _)
theorem condGt_iff : condGt fl = true ↔ fl.getLsbD 1 = true := Iff.rfl
theorem condLt_iff : condLt fl = true ↔ fl.getLsbD 2 = true := Iff.rfl
theorem condLe_iff : condLe fl = true ↔ fl.getLsbD 2 = true ∨ fl.getLsbD 0 = true := Bool.or_eq_true_iff
theorem condGe_iff : condGe fl = true ↔ fl.getLsbD 1 = true ∨ fl.getLsbD 0 = true := Bool.or_eq_true_iff

end Sys2Proof.Machine

namespace Sys2Proof.Proofs

open Sys2Proof.Machine Sys2Proof.Claims

/-- The pseudocode of R191 once for all six jumps: a handler that is `jumpIf` on a test of FL jumps exactly when the test
holds, and otherwise is the automatic advance. -/
theorem jumpsWhen_of_exec_eq_jumpIf {jump : Nat → Instr} {test : Byte → Bool} {cond : Byte → Prop}
    (hexec : ∀ ra s, exec (jump ra) s = jumpIf (test s.fl) s (s.reg ra)) (htest : ∀ fl, test fl = true ↔ cond fl) :
    JumpsWhen jump cond := by
  intro ra s
  rw [hexec, jumpIf_eq, ← htest]
  refine ⟨fun htaken => ?taken, fun hnot => ?notTaken⟩
  case taken => rw [if_pos htaken]; rfl
  case notTaken =>
    rw [if_neg hnot]
    exact ⟨s.advance, rfl, autoAdvanced_of_pc_eq rfl, rfl⟩

/-- Settles O44: JMP writes the PC and nothing else. -/
theorem jmpGoesToRegister : Obligations.JmpGoesToRegister :=
  fun s ra => jump_eq s (s.reg ra)

/-- Settles O45: each handler is `jumpIf` on its own condition, which reads the bits R191 names. -/
theorem conditionalJumpsFollowFlags : Obligations.ConditionalJumpsFollowFlags :=
  ⟨jumpsWhen_of_exec_eq_jumpIf (fun _ _ => rfl) condEq_iff,
    jumpsWhen_of_exec_eq_jumpIf (fun _ _ => rfl) condNe_iff,
    jumpsWhen_of_exec_eq_jumpIf (fun _ _ => rfl) condGt_iff,
    jumpsWhen_of_exec_eq_jumpIf (fun _ _ => rfl) condLt_iff,
    jumpsWhen_of_exec_eq_jumpIf (fun _ _ => rfl) condLe_iff,
    jumpsWhen_of_exec_eq_jumpIf (fun _ _ => rfl) condGe_iff⟩

end Sys2Proof.Proofs

/-! Proofs about the ALU (spec/47_alu.md): each entry as exact arithmetic on the numbers its operands hold, the zero divisor,
and the flags of a comparison. What a register-only instruction leaves unchanged is `writesRegister_of_exec`. -/

namespace Sys2Proof.Machine

open Sys2Proof.Claims

/-! ## The entries as arithmetic on 0 to 255 (R201) -/

variable (x y : Byte)

theorem toNat_aluInc : (aluInc x).toNat = (x.toNat + 1) % 256 := BitVec.toNat_ofNat _ _

/-- A decrement of the exact integer, taken modulo 256, without leaving the naturals. -/
theorem toNat_aluDec : (aluDec x).toNat = (x.toNat + 255) % 256 := by
  rw [aluDec, BitVec.toNat_ofInt]
  omega

theorem toNat_aluAdd : (aluAdd x y).toNat = (x.toNat + y.toNat) % 256 := BitVec.toNat_ofNat _ _

/-- A difference of the exact integers, taken modulo 256, without leaving the naturals. -/
theorem toNat_aluSub : (aluSub x y).toNat = (x.toNat + 256 - y.toNat) % 256 := by
  have hy : y.toNat < 256 := y.isLt
  rw [aluSub, BitVec.toNat_ofInt]
  omega

theorem toNat_aluMul : (aluMul x y).toNat = x.toNat * y.toNat % 256 := BitVec.toNat_ofNat _ _

/-- A number up to a byte's value needs no reduction modulo 256. -/
theorem toNat_trunc8_of_le {n : Nat} (h : n ≤ x.toNat) : (trunc8 n).toNat = n := by
  rw [trunc8, BitVec.toNat_ofNat]
  exact Nat.mod_eq_of_lt (h.trans_lt x.isLt)

theorem toNat_aluDiv : (aluDiv x y).toNat = x.toNat / y.toNat := toNat_trunc8_of_le x (Nat.div_le_self _ _)

theorem toNat_aluMod : (aluMod x y).toNat = x.toNat % y.toNat := toNat_trunc8_of_le x (Nat.mod_le _ _)

theorem toNat_aluNot : (aluNot x).toNat = 255 - x.toNat := BitVec.toNat_not

theorem toNat_aluShl : (aluShl x y).toNat = x.toNat * 2 ^ y.toNat % 256 := by
  rw [aluShl, Nat.shiftLeft_eq]
  exact BitVec.toNat_ofNat _ _

theorem toNat_aluShr : (aluShr x y).toNat = x.toNat / 2 ^ y.toNat := by
  rw [aluShr, Nat.shiftRight_eq_div_pow]
  exact toNat_trunc8_of_le x (Nat.div_le_self _ _)

/-- A byte shifted left by 8 or more is a multiple of 256 (R222). -/
theorem toNat_aluShl_of_eight_le (h : 8 ≤ y.toNat) : (aluShl x y).toNat = 0 := by
  rw [toNat_aluShl]
  exact Nat.mod_eq_zero_of_dvd (Dvd.dvd.mul_left (Nat.pow_dvd_pow 2 h) x.toNat)

/-- A byte is below every power of two from 2 ^ 8 on (R223). -/
theorem toNat_aluShr_of_eight_le (h : 8 ≤ y.toNat) : (aluShr x y).toNat = 0 := by
  rw [toNat_aluShr]
  exact Nat.div_eq_of_lt (x.isLt.trans_le (Nat.pow_le_pow_right (by decide) h))

/-! ## What an ALU instruction answers -/

/-- A register-only instruction whose result is the number `n`. -/
theorem writesRegister_of_toNat_eq {i : Instr} {s : State} {dst n : Nat} {v : Byte}
    (h : exec i s = finish (s.setReg dst v)) (hv : v.toNat = n) : WritesRegister i dst s n :=
  hv ▸ writesRegister_of_exec h

/-- The value a register-only instruction leaves in its destination, read from its answer. -/
theorem toNat_reg_of_writesRegister {i : Instr} {s t : State} {dst n : Nat} (h : WritesRegister i dst s n)
    (ht : exec i s = .next t) : (t.reg dst).toNat = n := by
  obtain ⟨u, hu, hval, -⟩ := h
  obtain rfl : u = t := Host.Outcome.next.inj (hu.symm.trans ht)
  exact hval

/-- A zero divisor is fatal before any write (R216, R254). -/
theorem exec_div_of_zero {s : State} {rb : Nat} (h : s.reg rb = 0x00#8) (ra : Nat) :
    exec (.div ra rb) s = .fault (.divisionByZero (s.setStatus (.faulted .divisionByZero))) := if_pos h

/-- A zero divisor is fatal before any write (R217, R254). -/
theorem exec_mod_of_zero {s : State} {rb : Nat} (h : s.reg rb = 0x00#8) (ra : Nat) :
    exec (.mod ra rb) s = .fault (.divisionByZero (s.setStatus (.faulted .divisionByZero))) := if_pos h

/-! ## The flags of a comparison (R218) -/

variable (fl : Byte)

theorem compareFlags_E_iff : (compareFlags fl x y).getLsbD 0 = true ↔ x.toNat = y.toNat := by
  rw [compareFlags_bit fl x y _ (by decide)]
  exact decide_eq_true_iff

theorem compareFlags_G_iff : (compareFlags fl x y).getLsbD 1 = true ↔ y.toNat < x.toNat := by
  rw [compareFlags_bit fl x y _ (by decide)]
  exact decide_eq_true_iff

theorem compareFlags_L_iff : (compareFlags fl x y).getLsbD 2 = true ↔ x.toNat < y.toNat := by
  rw [compareFlags_bit fl x y _ (by decide)]
  exact decide_eq_true_iff

/-- Bits 7:3 are kept; no byte has a bit above them. -/
theorem compareFlags_bit_of_three_le {k : Nat} (h : 3 ≤ k) : (compareFlags fl x y).getLsbD k = fl.getLsbD k := by
  by_cases hk : k < 8
  · rw [compareFlags_bit fl x y k hk, if_neg (by omega), if_neg (by omega), if_neg (by omega)]
  · rw [BitVec.getLsbD_of_ge _ _ (Nat.not_lt.1 hk), BitVec.getLsbD_of_ge _ _ (Nat.not_lt.1 hk)]

end Sys2Proof.Machine

/-! The statements of the family about the ALU: each instruction but CMP is one register write, of the value its entry
computes. -/

namespace Sys2Proof.Proofs

open Sys2Proof.Machine Sys2Proof.Claims

/-- Settles O46: the value of each entry, and for DIV and MOD the case of the divisor. -/
theorem arithmeticIsExactModulo256 : Obligations.ArithmeticIsExactModulo256 := by
  refine fun s ra rb => ⟨writesRegister_of_toNat_eq rfl (toNat_aluInc _), writesRegister_of_toNat_eq rfl (toNat_aluDec _),
    writesRegister_of_toNat_eq rfl (toNat_aluAdd _ _), writesRegister_of_toNat_eq rfl (toNat_aluSub _ _),
    writesRegister_of_toNat_eq rfl (toNat_aluMul _ _), fun h => ?nonzero, fun h => ?zero⟩
  case nonzero =>
    have hdivisor : s.reg rb ≠ 0x00#8 := fun h0 => h (congrArg BitVec.toNat h0)
    exact ⟨writesRegister_of_toNat_eq (exec_div s ra rb hdivisor) (toNat_aluDiv _ _),
      writesRegister_of_toNat_eq (exec_mod s ra rb hdivisor) (toNat_aluMod _ _)⟩
  case zero =>
    have hdivisor : s.reg rb = 0x00#8 := BitVec.eq_of_toNat_eq h
    exact ⟨exec_div_of_zero hdivisor ra, exec_mod_of_zero hdivisor ra⟩

/-- Settles O47: the row of ADD in the opcode map (O8), and its sum (O46). -/
theorem addWrapsWithoutCarry : Obligations.AddWrapsWithoutCarry := by
  refine ⟨fun p a b hp => ⟨?decode, rfl⟩, fun s ra rb => ?sum⟩
  case decode =>
    obtain ⟨-, -, -, -, -, -, -, -, -, -, -, -, -, -, -, -, -, -, -, -, hadd, -⟩ := opcodeMapRows p a b hp
    exact decode_cons_eq_ok_iff.2 ⟨hadd, Nat.le_refl 2, rfl⟩
  case sum =>
    obtain ⟨-, -, hadd, -⟩ := arithmeticIsExactModulo256 s ra rb
    exact hadd

/-- Settles O48: an answer of DIV means a divisor other than 0, and then DIV and MOD leave quotient and remainder (O46). -/
theorem divisionLaw : Obligations.DivisionLaw := by
  intro s ra rb q r hq hr
  obtain ⟨-, -, -, -, -, hnonzero, hzero⟩ := arithmeticIsExactModulo256 s ra rb
  have hdivisor : (s.reg rb).toNat ≠ 0 := fun h0 => nomatch hq.symm.trans (hzero h0).1
  obtain ⟨hdiv, hmod⟩ := hnonzero hdivisor
  rw [toNat_reg_of_writesRegister hdiv hq, toNat_reg_of_writesRegister hmod hr]
  exact ⟨(Nat.div_add_mod' _ _).symm, Nat.mod_lt _ (Nat.pos_of_ne_zero hdivisor), Nat.div_le_self _ _⟩

/-- Settles O49: the bits of a byte are those of its number. -/
theorem bitwiseOperationsByBit : Obligations.BitwiseOperationsByBit := fun s ra rb =>
  ⟨writesRegister_of_toNat_eq rfl (toNat_aluNot _),
    ⟨(s.reg ra &&& s.reg rb).toNat, writesRegister_of_exec rfl, BitVec.isLt _, Nat.testBit_and _ _⟩,
    ⟨(s.reg ra ||| s.reg rb).toNat, writesRegister_of_exec rfl, BitVec.isLt _, Nat.testBit_or _ _⟩,
    ⟨(s.reg ra ^^^ s.reg rb).toNat, writesRegister_of_exec rfl, BitVec.isLt _, Nat.testBit_xor _ _⟩⟩

/-- Settles O50: the shift by any amount, and by an amount no 8-bit value survives. -/
theorem shiftsUseFullAmount : Obligations.ShiftsUseFullAmount := fun _ _ _ =>
  ⟨writesRegister_of_toNat_eq rfl (toNat_aluShl _ _), writesRegister_of_toNat_eq rfl (toNat_aluShr _ _), fun h =>
    ⟨writesRegister_of_toNat_eq rfl (toNat_aluShl_of_eight_le _ _ h),
      writesRegister_of_toNat_eq rfl (toNat_aluShr_of_eight_le _ _ h)⟩⟩

/-- Settles O51: CMP writes the compared flags and advances; the flags bit by bit. -/
theorem cmpSetsExactlyOneFlag : Obligations.CmpSetsExactlyOneFlag := fun s ra rb =>
  ⟨execNext s (.cmp ra rb), rfl, compareFlags_E_iff _ _ _, compareFlags_G_iff _ _ _, compareFlags_L_iff _ _ _,
    fun _ => compareFlags_bit_of_three_le _ _ _, fun _ => rfl, fun _ => rfl, autoAdvanced_of_pc_eq rfl, rfl⟩

end Sys2Proof.Proofs

/-! Proofs about the ports `load` and `status` (spec/60_exceptions.md, spec/70_reset_and_hazards.md): what each admission of a
load answers, and the admission a step leaves. -/

namespace Sys2Proof.Machine

/-! ## The port `load`, by its length and its admission (R281) -/

theorem load_of_lt_length {bytes : List Byte} (h : 256 < bytes.length) (s : State) :
    load bytes s = .refused .loadTooLong := if_pos h

theorem load_of_open {bytes : List Byte} {s : State} (hlen : bytes.length ≤ 256) (hopen : s.loadOpen = true) :
    load bytes s = .next ((storeBytes 0x00#8 bytes s).setLoadOpen false) := by
  rw [load, if_neg (Nat.not_lt.2 hlen), if_pos hopen]

theorem load_of_not_open {bytes : List Byte} {s : State} (hlen : bytes.length ≤ 256) (hclosed : s.loadOpen = false) :
    load bytes s = .refused .loadAfterStart := by
  rw [load, if_neg (Nat.not_lt.2 hlen), if_neg (ne_true_of_eq_false hclosed)]

@[simp] theorem settleHalt_loadOpen (s : State) : (settleHalt s).loadOpen = s.loadOpen := by
  cases h : s.halted <;> simp [settleHalt, h]

/-- A cycle ends the admission of a load in its fetch, whatever its outcome (R281); a step that is no transition leaves the
admission as it was. -/
theorem resultState_step_loadOpen {s t : State} (hrun : s.status = .running) (h : resultState (step s) = some t) :
    t.loadOpen = false := by
  rcases step_cases s with ⟨hstop, -⟩ | ⟨-, e, -, hs⟩ | ⟨-, i, -, hs | ⟨hs, -⟩ | ⟨hs, -⟩⟩
  · exact absurd hrun hstop
  all_goals rw [hs] at h; obtain rfl := Option.some.inj h
  · rfl
  · simp
  · rfl
  · rfl

/-! ## The port `status` (R252) -/

/-- The codes stop at 2, before the code R251 reserves for UnsupportedOperation. -/
theorem statusPort_code_le_two : ∀ st : Status, (statusPort st).2 ≤ 2
  | .running | .halted | .faulted .undefinedOpcode | .faulted .divisionByZero | .refused .int => by decide

end Sys2Proof.Machine

namespace Sys2Proof.Proofs

open Sys2Proof.Machine

/-- Settles O26: an admitted load is the stored bytes, which change memory alone, with the admission closed. -/
theorem loadStoresFromAddressZero : Obligations.LoadStoresFromAddressZero := by
  refine ⟨fun bytes s hlen hopen => ?admitted, fun bytes s hlong => load_of_lt_length hlong s,
    fun bytes s hlen hclosed => load_of_not_open hlen hclosed, fun s t hrun ht => resultState_step_loadOpen hrun ht⟩
  case admitted =>
    have hload := load_of_open hlen hopen
    refine ⟨_, hload, fun a => ?stored, load_next_eq hload⟩
    case stored => simpa using byteAt_storeBytes bytes s 0x00#8 a hlen

/-- Settles O27: the table of R252, and the bound on its codes. -/
theorem statusPortCodes : Obligations.StatusPortCodes :=
  ⟨rfl, rfl, rfl, rfl, rfl, fun st => ((statusPort_code_le_two st).trans_lt (by decide)).ne⟩

end Sys2Proof.Proofs
